-- ==== Sys2Proof/Word.lean ====
section
/-! DEFINITION. The word types of the block: 32-bit registers and command words, 8-bit bytes (00_scope.md R5, R6). -/

namespace Sys2Proof

/-- A register or a command word: 32 bits (R5). -/
abbrev Word := BitVec 32

/-- A byte of a buffer: 8 bits (R6). -/
abbrev Byte := BitVec 8

end Sys2Proof
end

