-- ==== Sys2Proof/Config.lean ====
section
/-! DEFINITION. What an implementation fixes (00_scope.md R5) and the one free value of the spec, the content of the
buffers after power-on (10_state.md R47, 93_implementation_defined.md U4). -/

namespace Sys2Proof

/-- The block's two byte memories (10_state.md R44). -/
inductive Buffer where
  | ibuf
  | obuf
  deriving DecidableEq, Repr

/-- The size of a buffer in bytes, R5's range 1 to 2^32 - 1 by construction: the size less one. -/
structure BufSize where
  lessOne : Fin 4294967295
  deriving DecidableEq, Repr

/-- The size as a number of bytes. -/
def BufSize.bytes (z : BufSize) : Nat := z.lessOne.val + 1

/-- The two parameters that change what a command computes (R5). -/
structure Params where
  /-- IBUF_SIZE. -/
  ibufSize : BufSize
  /-- OBUF_SIZE. -/
  obufSize : BufSize
  deriving DecidableEq, Repr

/-- The sizes of the one state State.reset. DESIGN CHOICE (log entry 1, unsafe for a claim about State.reset's own
sizes): R5 leaves both OPEN; 256 is the parameter of every vector of 95_test_vectors.md. Every other definition works
for any Params. -/
def Config.params : Params := ⟨⟨255⟩, ⟨255⟩⟩

/-- The byte that buffer `b` holds at offset `a` after power-on number `n` until something writes it: an
unconstrained draw (R47, R121, U4). It has no body, so nothing can be proved of its value (log entry 2, safe). -/
opaque Config.powerOnByte (b : Buffer) (n : Nat) (a : Nat) : Byte

/-- REG_BASE, OPEN, read by no rule (R5, R57; log entry 13). -/
opaque Config.regBase : Nat

/-- IBUF_BASE, OPEN, read by no rule (R5, R57; log entry 13). -/
opaque Config.ibufBase : Nat

/-- OBUF_BASE, OPEN, read by no rule (R5, R57; log entry 13). -/
opaque Config.obufBase : Nat

/-- CMD_LATENCY, the time from a write of a word to CMD until DONE, OPEN, read by no rule (R5). It may depend on the
command and its byte count (R129), so it has both as arguments. DESIGN CHOICE (log entry 13, safe): it depends on nothing
else, a command is named by its word, and the time is a Nat without a unit. -/
opaque Config.cmdLatency (command : Word) (byteCount : Nat) : Nat

end Sys2Proof
end

