-- ==== Sys2Proof/Syntax.lean ====
section
/-! DEFINITION. The commands of the block, one constructor per row of the opcode map (30_encoding.md R67). -/

namespace Sys2Proof

/-- The 15 commands of R67. Only CRC_BYTE has an operand in its word, the immediate byte IMM8 (R65); every
other operand is a fixed register (R66). -/
inductive Instr where
  | nop
  | crcInit
  | crcByte (b : Byte)
  | crcBuf
  | crcW32
  | ldBe32
  | stBe32
  | copy
  | typeChk
  | sigChk
  | sigWr
  | chkParse
  | chkNext
  | chkEmit
  | pngParse
  deriving DecidableEq, Repr

end Sys2Proof
end

