-- ==== Sys2Proof/WellFormed.lean ====
section
/-! DEFINITION. Well-formed commands. The type Instr already admits exactly the legal commands: IMM8 is a byte (R65)
and no other field is an operand (R66), so every term is well formed. The checks the spec makes are on the command
WORD (R68, R69); they are Decode.lean's legal and decode. -/

namespace Sys2Proof

/-- R64 to R66: every command the type can write is well formed, CRC_BYTE with every value of IMM8 (R82). -/
def Instr.wellFormed : Instr → Bool
  | .nop => true
  | .crcInit => true
  | .crcByte _ => true
  | .crcBuf => true
  | .crcW32 => true
  | .ldBe32 => true
  | .stBe32 => true
  | .copy => true
  | .typeChk => true
  | .sigChk => true
  | .sigWr => true
  | .chkParse => true
  | .chkNext => true
  | .chkEmit => true
  | .pngParse => true

end Sys2Proof
end

