-- ==== Sys2Proof/Decode.lean ====
section
/-! DEFINITION. The command word: its fields (R64), the legal words (R68), the decoder with its named rejections
(R68, R69) and the encoder (R67). -/

namespace Sys2Proof

/-- OPC, bits 7:0 of a command word (R64). -/
def opcOf (w : Word) : Byte := w.extractLsb' 0 8

/-- IMM8, bits 15:8 of a command word (R64). -/
def immOf (w : Word) : Byte := w.extractLsb' 8 8

/-- RSV, bits 31:16 of a command word (R64). -/
def rsvOf (w : Word) : BitVec 16 := w.extractLsb' 16 16

/-- The 15 assigned opcodes (R67, R68). -/
def assignedOpcodes : List Byte :=
  [0x00, 0x01, 0x02, 0x03, 0x04, 0x08, 0x09, 0x0A, 0x10, 0x18, 0x19, 0x20, 0x21, 0x22, 0x23]

/-- R68, clause by clause: RSV is 0, OPC is assigned, and IMM8 is 0 unless the command is CRC_BYTE. -/
def legal (w : Word) : Bool :=
  rsvOf w == 0 && assignedOpcodes.contains (opcOf w) && (opcOf w == 0x02 || immOf w == 0)

/-- Why a word is illegal: the three spaces of R69's table. Each raises BadCommand (R75). -/
inductive IllegalWord where
  /-- w[31:16] is not 0. -/
  | nonzeroReserved
  /-- OPC is none of the 15 assigned opcodes. -/
  | unassignedOpcode
  /-- IMM8 is not 0 on a command that takes no immediate. -/
  | nonzeroImmediate
  deriving DecidableEq, Repr

/-- The command that opcode `op` selects, CRC_BYTE taking `imm` as its byte (R65, R67). -/
def commandOf (op imm : Byte) : Option Instr :=
  match op.toNat with
  | 0x00 => some .nop
  | 0x01 => some .crcInit
  | 0x02 => some (.crcByte imm)
  | 0x03 => some .crcBuf
  | 0x04 => some .crcW32
  | 0x08 => some .ldBe32
  | 0x09 => some .stBe32
  | 0x0A => some .copy
  | 0x10 => some .typeChk
  | 0x18 => some .sigChk
  | 0x19 => some .sigWr
  | 0x20 => some .chkParse
  | 0x21 => some .chkNext
  | 0x22 => some .chkEmit
  | 0x23 => some .pngParse
  | _ => none

/-- Decoding, total on every word (R68): a legal word selects its command, an illegal one is rejected by the space
of R69 it lies in. -/
def decode (w : Word) : Except IllegalWord Instr :=
  if rsvOf w ≠ 0 then .error .nonzeroReserved
  else
    match commandOf (opcOf w) (immOf w) with
    | none => .error .unassignedOpcode
    | some i => if opcOf w ≠ 0x02 ∧ immOf w ≠ 0 then .error .nonzeroImmediate else .ok i

/-- The whole command word of a command, the column `word` of R67. -/
def encode : Instr → Word
  | .nop => 0x00000000
  | .crcInit => 0x00000001
  | .crcByte b => b.setWidth 32 <<< 8 ||| 0x02
  | .crcBuf => 0x00000003
  | .crcW32 => 0x00000004
  | .ldBe32 => 0x00000008
  | .stBe32 => 0x00000009
  | .copy => 0x0000000A
  | .typeChk => 0x00000010
  | .sigChk => 0x00000018
  | .sigWr => 0x00000019
  | .chkParse => 0x00000020
  | .chkNext => 0x00000021
  | .chkEmit => 0x00000022
  | .pngParse => 0x00000023

/-- The host's check of the decoder on a table row: the low `nbits` bits of `w` as one command word, the bits above
them 0. A number that is no 32-bit word is none (R64, R70: no other length exists). -/
def decodeTableWord (nbits w : Nat) : Option Instr :=
  let word := w % 2 ^ nbits
  if word < 2 ^ 32 then (decode (BitVec.ofNat 32 word)).toOption else none

end Sys2Proof
end

