-- ==== Sys2Proof/Machine/State.lean ====
section
/-! DEFINITION. The state of the block (10_state.md), the outside world's actions on it (00_scope.md R15), the reasons a
step can stop, and the state after reset (R47, R121). -/

namespace Sys2Proof.Machine

/-- The 21 registers of the window (R17), CRC_OUT among them although it is not storage (R31). -/
inductive Reg where
  | cmd | status | ctrl | src | cnt | val | ibufLen | cursor | optr | crcState | crcOut | result
  | chunkLen | chunkType | chunkCrc | calcCrc | dataOff | dataLen | chunkCount | errInfo | typeFlags
  deriving DecidableEq, Repr

/-- STATUS by its fields (R21). Bits 31:8 are reserved and read 0, so they are no field (log entry 11). -/
structure Status where
  busy : Bool
  done : Bool
  err : Bool
  eoi : Bool
  errcode : BitVec 4
  deriving DecidableEq, Repr

/-- CTRL by its one stored field (R22): SRST reads 0 and bits 31:2 are reserved and read 0 (log entry 11). -/
structure Ctrl where
  irqEn : Bool
  deriving DecidableEq, Repr

/-- The error kinds of R106. InvalidLength and NotFound have codes and are never raised by the block (U13). -/
inductive ErrorKind where
  | invalidByte | invalidLength | crcMismatch | lengthMismatch | badSignature | notFound
  | truncated | badCommand | bufferBounds
  deriving DecidableEq, Repr

/-- The width of a host access to the register window. Only a 32-bit one has a meaning (R18). -/
inductive AccessWidth where
  | byte | half | word | double
  deriving DecidableEq, Repr

/-- One action of the outside world: a host access (R15, R71) or a power-on reset (R121). -/
inductive HostAction where
  /-- A read of the register window at a byte offset (R18). -/
  | readReg (width : AccessWidth) (off : BitVec 8)
  /-- A write of the register window at a byte offset (R18); a write to CMD issues a command (R73). -/
  | writeReg (width : AccessWidth) (off : BitVec 8) (v : Word)
  /-- A byte read of a buffer (R44, R48). -/
  | readByte (b : Buffer) (a : Word)
  /-- A byte write of a buffer (R44, R48). -/
  | writeByte (b : Buffer) (a : Word) (v : Byte)
  /-- The power-on event (R121). -/
  | powerOnReset
  deriving DecidableEq, Repr

/-- What a host read returned: a register's word or a buffer's byte (R18, R44). -/
inductive ReadData where
  | word (v : Word)
  | byte (v : Byte)
  deriving DecidableEq, Repr

/-- The bytes of a buffer that something has written since power-on, by strictly rising offset (log entry 3). -/
abbrev Memory := List Host.Cell

/-- The reasons a step stops with a fault. -/
inductive Fault where
  /-- Raised by a host byte access to IBUF at an offset of IBUF_SIZE or more: no such byte exists (R44, R57). Safe
  (log entry 7). -/
  | ibufOffsetAbsent
  /-- Raised by a host byte access to OBUF at an offset of OBUF_SIZE or more: no such byte exists (R44, R57). Safe
  (log entry 7). -/
  | obufOffsetAbsent
  deriving DecidableEq, Repr

/-- The reasons a step is refused. -/
inductive Refusal where
  /-- Raised by an arm of exec whose command has no meaning yet; no arm is one. Safe. -/
  | notModelled (mnemonic : String)
  /-- Raised by a host register access that is not 32 bits wide (R18, R120, D40). Safe (log entry 9). -/
  | registerAccessNotWord
  /-- Raised by a host register access at an offset that is no multiple of 4 (R18, R120, D40). Safe (log entry 9). -/
  | registerAccessMisaligned
  /-- Raised by a host access other than a STATUS read in a state with STATUS.BUSY = 1 (R125, U9). Safe (log entry 8). -/
  | accessWhileBusy
  deriving DecidableEq, Repr

/-- The state. Registers of R17 but CRC_OUT, which is computed (R31); the two memories of R44; the parameters of
R5; and three fields of the model's own: powerOns, pending and lastRead. -/
structure State where
  /-- IBUF_SIZE and OBUF_SIZE (R5); no step changes them (log entry 1). -/
  params : Params
  cmd : Word
  status : Status
  ctrl : Ctrl
  src : Word
  cnt : Word
  val : Word
  ibufLen : Word
  cursor : Word
  optr : Word
  crcState : Word
  result : Word
  chunkLen : Word
  chunkType : Word
  chunkCrc : Word
  calcCrc : Word
  dataOff : Word
  dataLen : Word
  chunkCount : Word
  errInfo : Word
  typeFlags : Word
  ibuf : Memory
  obuf : Memory
  /-- The number of the latest power-on, the argument of the free draw Config.powerOnByte (log entry 2). -/
  powerOns : Nat
  /-- The outside world's coming actions, oldest first; a step performs the first (R15, R43; log entry 4). -/
  pending : List HostAction
  /-- The value the host's latest read returned (R18; log entry 6). -/
  lastRead : Option ReadData
  deriving DecidableEq, Repr

/-- The state after power-on number `n` of a block of sizes `p`: every register at the reset value of R17, no byte
of a buffer written yet (R47, R121), nothing pending and nothing read. -/
def State.powerOn (p : Params) (n : Nat) : State where
  params := p
  cmd := 0x00000000
  status := { busy := false, done := false, err := false, eoi := false, errcode := 0 }
  ctrl := { irqEn := false }
  src := 0x00000000
  cnt := 0x00000000
  val := 0x00000000
  ibufLen := 0x00000000
  cursor := 0x00000000
  optr := 0x00000000
  crcState := 0xFFFFFFFF
  result := 0x00000000
  chunkLen := 0x00000000
  chunkType := 0x00000000
  chunkCrc := 0x00000000
  calcCrc := 0x00000000
  dataOff := 0x00000000
  dataLen := 0x00000000
  chunkCount := 0x00000000
  errInfo := 0x00000000
  typeFlags := 0x00000000
  ibuf := []
  obuf := []
  powerOns := n
  pending := []
  lastRead := none

/-- The machine right after reset (R121), at the sizes Config.params (log entry 1). -/
def State.reset : State := State.powerOn Config.params 0

end Sys2Proof.Machine
end

