-- ==== Sys2Proof/Machine/Operands.lean ====
section
/-! DEFINITION. The operand forms: the registers as numbers (30_encoding.md R66), big-endian fields (00_scope.md R10),
the register map by offset (10_state.md R17), bounds (20_memory.md R54) and byte reads of the buffers (R9, R44). -/

namespace Sys2Proof.Machine

/-- A 4-byte sequence in stream order: a big-endian field or a type tag (R10, R85). -/
structure Quad where
  b0 : Byte
  b1 : Byte
  b2 : Byte
  b3 : Byte
  deriving DecidableEq, Repr

/-- s[i] of a 4-byte sequence (R9). -/
def Quad.at (q : Quad) : Fin 4 → Byte
  | 0 => q.b0
  | 1 => q.b1
  | 2 => q.b2
  | 3 => q.b3

/-- The sequence as a list of bytes, s[0] first. -/
def Quad.toList (q : Quad) : List Byte := [q.b0, q.b1, q.b2, q.b3]

/-- be32 (R10): s[0] is the most significant byte. -/
def be32 (q : Quad) : Word := q.b0 ++ q.b1 ++ q.b2 ++ q.b3

/-- be32bytes (R10): v[31:24], v[23:16], v[15:8], v[7:0]. -/
def be32bytes (v : Word) : Quad :=
  ⟨v.extractLsb' 24 8, v.extractLsb' 16 8, v.extractLsb' 8 8, v.extractLsb' 0 8⟩

/-- The content of IBUF[a]: the last byte written there since power-on, or else the power-on draw (R44, R47, R59). -/
def Memory.written : Memory → Nat → Option Byte
  | [], _ => none
  | (k, v) :: m, a => if a = k then some v else Memory.written m a

/-- What byte `a` of buffer `b` reads as when the list `m` holds what was written since power-on `n`: the written
byte, or the free power-on draw (R47, R120; log entries 2 and 3). -/
def Memory.read (b : Buffer) (n : Nat) (m : Memory) (a : Nat) : Byte :=
  (Memory.written m a).getD (Config.powerOnByte b n a)

/-- IBUF[a] (R44). -/
def State.ibufByte (s : State) (a : Nat) : Byte := Memory.read .ibuf s.powerOns s.ibuf a

/-- OBUF[a] (R44). -/
def State.obufByte (s : State) (a : Nat) : Byte := Memory.read .obuf s.powerOns s.obuf a

/-- MemRead(a, n): IBUF[a], ..., IBUF[a + n - 1] (R9). -/
def memRead (s : State) (a n : Nat) : List Byte := (List.range n).map fun i => s.ibufByte (a + i)

/-- MemRead(a, 4) as a 4-byte sequence (R9, R52). -/
def memRead4 (s : State) (a : Nat) : Quad :=
  ⟨s.ibufByte a, s.ibufByte (a + 1), s.ibufByte (a + 2), s.ibufByte (a + 3)⟩

/-- InI(a, n): IBUF[a .. a+n) exists, in exact arithmetic (R54). -/
abbrev inI (s : State) (a n : Nat) : Prop := a + n ≤ s.params.ibufSize.bytes

/-- InO(a, n): OBUF[a .. a+n) exists, in exact arithmetic (R54). -/
abbrev inO (s : State) (a n : Nat) : Prop := a + n ≤ s.params.obufSize.bytes

/-- The operand SRC as an exact number (R7, R24, R66). -/
def srcOffset (s : State) : Nat := s.src.toNat

/-- The operand CNT as an exact number (R7, R25, R66). -/
def byteCount (s : State) : Nat := s.cnt.toNat

/-- The operand VAL as a packed type tag or a value's bytes, t0 = v[31:24] (R26, R34, R51). -/
def valBytes (s : State) : Quad := be32bytes s.val

/-- The operand IBUF_LEN as an exact number (R7, R27, R66). -/
def inputEnd (s : State) : Nat := s.ibufLen.toNat

/-- The operand CURSOR as an exact number (R7, R28, R66). -/
def walkCursor (s : State) : Nat := s.cursor.toNat

/-- The operand OPTR as an exact number (R7, R29, R66). -/
def outputPointer (s : State) : Nat := s.optr.toNat

/-- A register's value from an exact number. The sums the block stores stay at or below a buffer size, which is below
2^32 (R5), so nothing is lost; CHUNK_COUNT is the one value defined mod 2^32 (R39; log entry 14). -/
def toWord (n : Nat) : Word := BitVec.ofNat 32 n

/-- zext_32 of a byte (R7). -/
def zext32 (b : Byte) : Word := b.setWidth 32

/-- The register map: each register's byte offset in the window (R17). -/
def Reg.offset : Reg → BitVec 8
  | .cmd => 0x00
  | .status => 0x04
  | .ctrl => 0x08
  | .src => 0x0C
  | .cnt => 0x10
  | .val => 0x14
  | .ibufLen => 0x18
  | .cursor => 0x1C
  | .optr => 0x20
  | .crcState => 0x24
  | .crcOut => 0x28
  | .result => 0x2C
  | .chunkLen => 0x30
  | .chunkType => 0x34
  | .chunkCrc => 0x38
  | .calcCrc => 0x3C
  | .dataOff => 0x40
  | .dataLen => 0x44
  | .chunkCount => 0x48
  | .errInfo => 0x4C
  | .typeFlags => 0x50

/-- The registers of the map in the order of their offsets (R17). -/
def Reg.all : List Reg :=
  [.cmd, .status, .ctrl, .src, .cnt, .val, .ibufLen, .cursor, .optr, .crcState, .crcOut, .result,
    .chunkLen, .chunkType, .chunkCrc, .calcCrc, .dataOff, .dataLen, .chunkCount, .errInfo, .typeFlags]

/-- The register at a byte offset, or none where the window is unmapped (R17, R19). -/
def Reg.atOffset (off : BitVec 8) : Option Reg := Reg.all.find? fun r => r.offset == off

end Sys2Proof.Machine
end

