-- ==== Sys2Proof/Machine/Flags.lean ====
section
/-! DEFINITION. Flags: the case predicates and type-tag flags (00_scope.md R13, 42_type_tag.md R85, R86), STATUS and CTRL
as words (10_state.md R21, R22), the IRQ line (R45), the error codes (60_exceptions.md R106), and a register's value
as the host reads it (R8, R17). -/

namespace Sys2Proof.Machine

/-- is_upper(b): 0x41 <= b <= 0x5A (R13). -/
def isUpper (b : Byte) : Bool := 0x41 ≤ b && b ≤ 0x5A

/-- is_lower(b): 0x61 <= b <= 0x7A (R13). -/
def isLower (b : Byte) : Bool := 0x61 ≤ b && b ≤ 0x7A

/-- is_alpha(b) (R13). -/
def isAlpha (b : Byte) : Bool := (0x41 ≤ b && b ≤ 0x5A) || (0x61 ≤ b && b ≤ 0x7A)

/-- flags(t) (R86): zext_32({A, V, S, R, P, C}). -/
def tagFlags (t : Quad) : Word :=
  let c := isUpper t.b0
  let p := isUpper t.b1
  let r := isUpper t.b2
  let s := isLower t.b3
  let v := c && !p && r && s
  let a := isAlpha t.b0 && isAlpha t.b1 && isAlpha t.b2 && isAlpha t.b3
  (BitVec.ofBool a ++ BitVec.ofBool v ++ BitVec.ofBool s ++ BitVec.ofBool r ++ BitVec.ofBool p
    ++ BitVec.ofBool c).setWidth 32

/-- tag_error(t): the least index whose byte is not alphabetic, if any (R85). -/
def tagError (t : Quad) : Option (Fin 4) :=
  if !isAlpha t.b0 then some 0
  else if !isAlpha t.b1 then some 1
  else if !isAlpha t.b2 then some 2
  else if !isAlpha t.b3 then some 3
  else none

/-- STATUS as the 32-bit word of R21, reserved bits 0. -/
def Status.toWord (st : Status) : Word :=
  (st.errcode ++ BitVec.ofBool st.eoi ++ BitVec.ofBool st.err ++ BitVec.ofBool st.done
    ++ BitVec.ofBool st.busy).setWidth 32

/-- CTRL as the 32-bit word of R22: SRST and the reserved bits read 0. -/
def Ctrl.toWord (c : Ctrl) : Word := (BitVec.ofBool c.irqEn).setWidth 32

/-- CRC_OUT: CRC_STATE XOR 0xFFFFFFFF (R31). -/
def crcOut (s : State) : Word := s.crcState ^^^ 0xFFFFFFFF

/-- The output signal IRQ = STATUS.DONE AND CTRL.IRQ_EN (R45, R110). -/
def irq (s : State) : Bool := s.status.done && s.ctrl.irqEn

/-- code(E), the STATUS.ERRCODE value of an error kind (R106). -/
def ErrorKind.code : ErrorKind → BitVec 4
  | .invalidByte => 1
  | .invalidLength => 2
  | .crcMismatch => 3
  | .lengthMismatch => 4
  | .badSignature => 5
  | .notFound => 6
  | .truncated => 7
  | .badCommand => 8
  | .bufferBounds => 9

/-- x[NAME]: a register's current value as a host read returns it (R8, R17, R18). -/
def State.reg (s : State) : Reg → Word
  | .cmd => s.cmd
  | .status => s.status.toWord
  | .ctrl => s.ctrl.toWord
  | .src => s.src
  | .cnt => s.cnt
  | .val => s.val
  | .ibufLen => s.ibufLen
  | .cursor => s.cursor
  | .optr => s.optr
  | .crcState => s.crcState
  | .crcOut => crcOut s
  | .result => s.result
  | .chunkLen => s.chunkLen
  | .chunkType => s.chunkType
  | .chunkCrc => s.chunkCrc
  | .calcCrc => s.calcCrc
  | .dataOff => s.dataOff
  | .dataLen => s.dataLen
  | .chunkCount => s.chunkCount
  | .errInfo => s.errInfo
  | .typeFlags => s.typeFlags

end Sys2Proof.Machine
end

