-- ==== Sys2Proof/Machine/Ops.lean ====
section
/-! DEFINITION. The shared operations: writing the buffers (00_scope.md R9), the CRC generator (41_crc.md R78, R79), the
command cycle and raising an error (40_command_cycle.md R73, R74, 60_exceptions.md R107), the resets (70_reset_and_hazards.md
R121, R122), the slice parser (43_chunk.md R91) and the signature compare (44_container.md R99). -/

namespace Sys2Proof.Machine

/-- The canonical form of a buffer's list: offsets strictly rise (log entry 3). -/
abbrev Memory.wf (m : Memory) : Prop := m.Pairwise fun x y => x.1 < y.1

/-- Write one byte, keeping the canonical form (R44). -/
def Memory.store : Memory → Nat → Byte → Memory
  | [], a, v => [(a, v)]
  | (k, w) :: m, a, v =>
    if a < k then (a, v) :: (k, w) :: m
    else if a = k then (a, v) :: m
    else (k, w) :: Memory.store m a v

/-- Write a byte sequence at ascending offsets, s[0] lowest (R9). -/
def Memory.storeAll (m : Memory) (a : Nat) : List Byte → Memory
  | [] => m
  | v :: vs => Memory.storeAll (Memory.store m a v) (a + 1) vs

/-- MemWrite(a, n, s), n = len(s): only OBUF is written (R9, R48). -/
def memWrite (s : State) (a : Nat) (bs : List Byte) : State := { s with obuf := Memory.storeAll s.obuf a bs }

/-- One shift of the CRC register (R78; log entry 16). -/
def crcShift (c : Word) : Word := if c.getLsbD 0 then (c >>> 1) ^^^ 0xEDB88320 else c >>> 1

/-- `k` shifts. -/
def crcShifts : Nat → Word → Word
  | 0, c => c
  | k + 1, c => crcShifts k (crcShift c)

/-- crc_step(c, b) (R78). -/
def crcStep (c : Word) (b : Byte) : Word := crcShifts 8 (c ^^^ zext32 b)

/-- Feed a byte sequence to a raw CRC register, in stream order (R79, R83). -/
def crcFeed (c : Word) (bs : List Byte) : Word := bs.foldl crcStep c

/-- crc32(s) (R79). -/
def crc32 (bs : List Byte) : Word := crcFeed 0xFFFFFFFF bs ^^^ 0xFFFFFFFF

/-- How a command's rule ends: it returns, or it raises an error with its value (R11). Either way the state holds the
writes made until then. -/
inductive Effect where
  | done (s : State)
  | raise (k : ErrorKind) (info : Word) (s : State)
  deriving DecidableEq, Repr

/-- Go on after a part of a rule that returned; a raise ends the command at once (R11). -/
def Effect.andThen : Effect → (State → Effect) → Effect
  | .done s, f => f s
  | .raise k info s, _ => .raise k info s

/-- Issue of command word w: R73's writes before the command's rule. It also is the only "return" from an error, since
it clears the record (R112). -/
def issue (w : Word) (s : State) : State :=
  { s with
    cmd := w
    status := { busy := true, done := false, err := false, eoi := false, errcode := 0 }
    errInfo := 0 }

/-- Completion (R74). -/
def complete (s : State) : State := { s with status := { s.status with busy := false, done := true } }

/-- raise E(info) (R107): the one operation by which an error is taken. It records the kind and its value and
completes. -/
def raiseError (k : ErrorKind) (info : Word) (s : State) : State :=
  complete { s with status := { s.status with err := true, errcode := k.code }, errInfo := info }

/-- The end of a command: completion, after the record of the error if it raised one (R73). -/
def Effect.finish : Effect → State
  | .done s => complete s
  | .raise k info s => raiseError k info s

/-- The command cycle around a command's rule (R73), one atomic step (R46, R55; log entry 15). -/
def runCommand (w : Word) (rule : State → Effect) (s : State) : State := (rule (issue w s)).finish

/-- An illegal word: BadCommand(w), nothing else (R75). -/
def badCommand (w : Word) (s : State) : State := runCommand w (fun t => .raise .badCommand w t) s

/-- Soft reset (R122): every register takes its reset value; both buffers, and what is not the block's own registers,
are kept. -/
def softReset (s : State) : State :=
  { State.powerOn s.params s.powerOns with
    ibuf := s.ibuf
    obuf := s.obuf
    pending := s.pending
    lastRead := s.lastRead }

/-- Power-on reset (R121): every register takes its reset value and every buffer byte is drawn anew. What the outside
world will do and has read is not the block's (log entry 10). -/
def powerOnReset (s : State) : State :=
  { State.powerOn s.params (s.powerOns + 1) with
    pending := s.pending
    lastRead := s.lastRead }

/-- SIG, the 8-byte signature (R12). -/
def sig : List Byte := [0x89, 0x50, 0x4E, 0x47, 0x0D, 0x0A, 0x1A, 0x0A]

/-- SIG[i] (R12). -/
def sigByte (i : Nat) : Byte := sig.getD i 0

/-- The least i in 0..7 with i >= E or IBUF[i] != SIG[i], if any (R99, R102). -/
def sigError (s : State) (e : Nat) : Option Nat :=
  (List.range 8).find? fun i => decide (e ≤ i) || s.ibufByte i != sigByte i

/-- Raise InvalidByte for the first byte of a tag that is not alphabetic, or go on (R85, R89). -/
def checkTag (t : Quad) (s : State) : Effect :=
  match tagError t with
  | some i => .raise .invalidByte (zext32 (t.at i)) s
  | none => .done s

/-- The seven register writes of parse_slice (R91) for the slice IBUF[base .. base+n), n >= 12. -/
def writeParse (base n : Nat) (s : State) : State :=
  let t := memRead4 s (base + 4)
  let d := memRead s (base + 8) (n - 12)
  { s with
    chunkLen := be32 (memRead4 s base)
    chunkType := be32 t
    chunkCrc := be32 (memRead4 s (base + n - 4))
    calcCrc := crc32 (t.toList ++ d)
    dataOff := toWord (base + 8)
    dataLen := toWord (n - 12)
    typeFlags := tagFlags t }

/-- parse_slice(base, n) (R91): the seven writes, then the checks in their normative order, tag, CRC, length (R109). -/
def parseSlice (base n : Nat) (s : State) : Effect :=
  (checkTag (memRead4 s (base + 4)) (writeParse base n s)).andThen fun t =>
    if t.chunkCrc ≠ t.calcCrc then .raise .crcMismatch t.calcCrc t
    else if t.chunkLen.toNat ≠ n - 12 then .raise .lengthMismatch (toWord (n - 12)) t
    else .done t

end Sys2Proof.Machine
end

