-- ==== Sys2Proof/Machine/Chunk.lean ====
section
/-! DEFINITION. The field, copy and chunk commands (43_chunk.md R92 to R96): each rule, and the meaning that runs it in
the command cycle. -/

namespace Sys2Proof.Machine

/-- LD_BE32's rule (R92). -/
def ruleLdBe32 (s : State) : Effect :=
  let a := srcOffset s
  if ¬ inI s a 4 then .raise .bufferBounds 0 s
  else .done { s with result := be32 (memRead4 s a) }

/-- ST_BE32's rule (R93). -/
def ruleStBe32 (s : State) : Effect :=
  let o := outputPointer s
  if ¬ inO s o 4 then .raise .bufferBounds 0 s
  else .done { memWrite s o (valBytes s).toList with optr := toWord (o + 4) }

/-- COPY's rule (R94): the IBUF range is checked first. -/
def ruleCopy (s : State) : Effect :=
  let a := srcOffset s
  let n := byteCount s
  let o := outputPointer s
  if ¬ inI s a n then .raise .bufferBounds 0 s
  else if ¬ inO s o n then .raise .bufferBounds 0 s
  else .done { memWrite s o (memRead s a n) with optr := toWord (o + n) }

/-- CHK_PARSE's rule (R95). -/
def ruleChkParse (s : State) : Effect :=
  let a := srcOffset s
  let n := byteCount s
  if ¬ inI s a n then .raise .bufferBounds 0 s
  else if n < 12 then .raise .truncated (toWord n) s
  else parseSlice a n s

/-- The serialized chunk with tag t and data d: be32bytes(n) || t || d || be32bytes(crc32(t || d)) (R90, R96). -/
def serializeChunk (t : Quad) (d : List Byte) : List Byte :=
  (be32bytes (toWord d.length)).toList ++ t.toList ++ d ++ (be32bytes (crc32 (t.toList ++ d))).toList

/-- CHK_EMIT's rule (R96): both bounds, then the flags, then the tag check, then the writes. -/
def ruleChkEmit (s : State) : Effect :=
  let t := valBytes s
  let a := srcOffset s
  let n := byteCount s
  let o := outputPointer s
  if ¬ inI s a n then .raise .bufferBounds 0 s
  else if ¬ inO s o (12 + n) then .raise .bufferBounds 0 s
  else
    (checkTag t { s with typeFlags := tagFlags t }).andThen fun u =>
      let d := memRead u a n
      .done { memWrite u o (serializeChunk t d) with
        calcCrc := crc32 (t.toList ++ d)
        optr := toWord (o + 12 + n) }

/-- LD_BE32 (R92). -/
def execLdBe32 (s : State) : Host.Outcome State Fault Refusal :=
  .next (runCommand (encode .ldBe32) ruleLdBe32 s)

/-- ST_BE32 (R93). -/
def execStBe32 (s : State) : Host.Outcome State Fault Refusal :=
  .next (runCommand (encode .stBe32) ruleStBe32 s)

/-- COPY (R94). -/
def execCopy (s : State) : Host.Outcome State Fault Refusal :=
  .next (runCommand (encode .copy) ruleCopy s)

/-- CHK_PARSE (R95). -/
def execChkParse (s : State) : Host.Outcome State Fault Refusal :=
  .next (runCommand (encode .chkParse) ruleChkParse s)

/-- CHK_EMIT (R96). -/
def execChkEmit (s : State) : Host.Outcome State Fault Refusal :=
  .next (runCommand (encode .chkEmit) ruleChkEmit s)

end Sys2Proof.Machine
end

