-- ==== Sys2Proof/Machine/Container.lean ====
section
/-! DEFINITION. The container commands (44_container.md R99 to R102): each rule, and the meaning that runs it in the
command cycle. -/

namespace Sys2Proof.Machine

/-- SIG_CHK's rule (R99). -/
def ruleSigChk (s : State) : Effect :=
  let e := inputEnd s
  if s.params.ibufSize.bytes < e then .raise .bufferBounds 0 s
  else
    let s := { s with cursor := 0, chunkCount := 0 }
    match sigError s e with
    | some k => .raise .badSignature (toWord k) s
    | none => .done { s with cursor := 8 }

/-- SIG_WR's rule (R100). -/
def ruleSigWr (s : State) : Effect :=
  let o := outputPointer s
  if ¬ inO s o 8 then .raise .bufferBounds 0 s
  else .done { memWrite s o sig with optr := toWord (o + 8) }

/-- CHK_NEXT's rule (R101). -/
def ruleChkNext (s : State) : Effect :=
  let e := inputEnd s
  let p := walkCursor s
  if s.params.ibufSize.bytes < e ∨ e < p then .raise .bufferBounds 0 s
  else if p = e then .done { s with status := { s.status with eoi := true } }
  else if e - p < 12 then .raise .truncated (toWord (e - p)) s
  else
    let l := (be32 (memRead4 s p)).toNat
    if e - p < 12 + l then .raise .truncated (toWord (e - p)) s
    else
      (parseSlice p (12 + l) s).andThen fun t =>
        .done { t with cursor := toWord (p + 12 + l), chunkCount := t.chunkCount + 1 }

/-- PNG_PARSE's success at the end of input (R102). -/
def walkEnd (p count : Nat) (s : State) : Effect :=
  .done { s with cursor := toWord p, chunkCount := toWord count, status := { s.status with eoi := true } }

/-- PNG_PARSE's loop at position p with count chunks accepted (R102). Every pass advances p by at least 12 and p never
passes e, so a fuel of e - p is never used up before p = e (log entry 12). -/
def walkLoop (e : Nat) : Nat → Nat → Nat → State → Effect
  | 0, p, count, s => walkEnd p count s
  | fuel + 1, p, count, s =>
    if p = e then walkEnd p count s
    else if e - p < 12 then .raise .truncated (toWord (e - p)) { s with cursor := toWord p }
    else
      let l := (be32 (memRead4 s p)).toNat
      if e - p < 12 + l then .raise .truncated (toWord (e - p)) { s with cursor := toWord p }
      else
        (parseSlice p (12 + l) { s with cursor := toWord p }).andThen fun t =>
          walkLoop e fuel (p + 12 + l) (count + 1) t

/-- PNG_PARSE's rule (R102). Every failure leaves CHUNK_COUNT at 0 (R39, D20). DESIGN CHOICE (log entry 17, unsafe): this
holds of BufferBounds too, where R102's pseudocode and D17 raise before any write; CURSOR keeps its value there. -/
def rulePngParse (s : State) : Effect :=
  let e := inputEnd s
  if s.params.ibufSize.bytes < e then .raise .bufferBounds 0 { s with chunkCount := 0 }
  else
    let s := { s with cursor := 0, chunkCount := 0 }
    match sigError s e with
    | some k => .raise .badSignature (toWord k) s
    | none => walkLoop e (e - 8) 8 0 s

/-- SIG_CHK (R99). -/
def execSigChk (s : State) : Host.Outcome State Fault Refusal :=
  .next (runCommand (encode .sigChk) ruleSigChk s)

/-- SIG_WR (R100). -/
def execSigWr (s : State) : Host.Outcome State Fault Refusal :=
  .next (runCommand (encode .sigWr) ruleSigWr s)

/-- CHK_NEXT (R101). -/
def execChkNext (s : State) : Host.Outcome State Fault Refusal :=
  .next (runCommand (encode .chkNext) ruleChkNext s)

/-- PNG_PARSE (R102). -/
def execPngParse (s : State) : Host.Outcome State Fault Refusal :=
  .next (runCommand (encode .pngParse) rulePngParse s)

end Sys2Proof.Machine
end

