-- ==== Sys2Proof/Machine/Crc.lean ====
section
/-! DEFINITION. The CRC commands (41_crc.md R81 to R84): each rule, and the meaning that runs it in the command cycle. -/

namespace Sys2Proof.Machine

/-- CRC_INIT's rule (R81). -/
def ruleCrcInit (s : State) : Effect := .done { s with crcState := 0xFFFFFFFF }

/-- CRC_BYTE's rule (R82). -/
def ruleCrcByte (b : Byte) (s : State) : Effect := .done { s with crcState := crcStep s.crcState b }

/-- CRC_BUF's rule (R83). -/
def ruleCrcBuf (s : State) : Effect :=
  let a := srcOffset s
  let n := byteCount s
  if ¬ inI s a n then .raise .bufferBounds 0 s
  else .done { s with crcState := crcFeed s.crcState (memRead s a n) }

/-- CRC_W32's rule (R84): v[31:24] first. -/
def ruleCrcW32 (s : State) : Effect :=
  .done { s with crcState := crcFeed s.crcState (valBytes s).toList }

/-- CRC_INIT (R81). -/
def execCrcInit (s : State) : Host.Outcome State Fault Refusal :=
  .next (runCommand (encode .crcInit) ruleCrcInit s)

/-- CRC_BYTE (R82). -/
def execCrcByte (b : Byte) (s : State) : Host.Outcome State Fault Refusal :=
  .next (runCommand (encode (.crcByte b)) (ruleCrcByte b) s)

/-- CRC_BUF (R83). -/
def execCrcBuf (s : State) : Host.Outcome State Fault Refusal :=
  .next (runCommand (encode .crcBuf) ruleCrcBuf s)

/-- CRC_W32 (R84). -/
def execCrcW32 (s : State) : Host.Outcome State Fault Refusal :=
  .next (runCommand (encode .crcW32) ruleCrcW32 s)

end Sys2Proof.Machine
end

