-- ==== Sys2Proof/Machine/Cycle.lean ====
section
/-! DEFINITION. NOP (40_command_cycle.md). A meaning is the whole step of a host write of the command's word to CMD:
issue, the command's rule, completion (R73). -/

namespace Sys2Proof.Machine

/-- NOP (R76): the command cycle alone. -/
def execNop (s : State) : Host.Outcome State Fault Refusal :=
  .next (runCommand (encode .nop) .done s)

end Sys2Proof.Machine
end

