-- ==== Sys2Proof/Machine/TypeTag.lean ====
section
/-! DEFINITION. TYPE_CHK (42_type_tag.md R89). -/

namespace Sys2Proof.Machine

/-- TYPE_CHK's rule (R89): the flags are written first, then the tag is checked. -/
def ruleTypeChk (s : State) : Effect :=
  let t := valBytes s
  checkTag t { s with typeFlags := tagFlags t }

/-- TYPE_CHK (R89). -/
def execTypeChk (s : State) : Host.Outcome State Fault Refusal :=
  .next (runCommand (encode .typeChk) ruleTypeChk s)

end Sys2Proof.Machine
end

