-- ==== Sys2Proof/Machine/Dispatch.lean ====
section
/-! DEFINITION. One arm per command. -/

namespace Sys2Proof.Machine

/-- The effect of issuing command `i`: the whole command, as one step (R15, R73). -/
def exec (i : Instr) (s : State) : Host.Outcome State Fault Refusal :=
  match i with
  | .nop => Sys2Proof.Machine.execNop s
  | .crcInit => Sys2Proof.Machine.execCrcInit s
  | .crcByte b => Sys2Proof.Machine.execCrcByte b s
  | .crcBuf => Sys2Proof.Machine.execCrcBuf s
  | .crcW32 => Sys2Proof.Machine.execCrcW32 s
  | .ldBe32 => Sys2Proof.Machine.execLdBe32 s
  | .stBe32 => Sys2Proof.Machine.execStBe32 s
  | .copy => Sys2Proof.Machine.execCopy s
  | .typeChk => Sys2Proof.Machine.execTypeChk s
  | .sigChk => Sys2Proof.Machine.execSigChk s
  | .sigWr => Sys2Proof.Machine.execSigWr s
  | .chkParse => Sys2Proof.Machine.execChkParse s
  | .chkNext => Sys2Proof.Machine.execChkNext s
  | .chkEmit => Sys2Proof.Machine.execChkEmit s
  | .pngParse => Sys2Proof.Machine.execPngParse s

end Sys2Proof.Machine
end

