-- ==== Sys2Proof/Machine/HostAccess.lean ====
section
/-! DEFINITION. The outside world's actions on the block (00_scope.md R15, 10_state.md R18 to R23, 20_memory.md R48, R56,
70_reset_and_hazards.md R121, R125), and the host notation of 30_encoding.md R71 and R72 as lists of actions. -/

namespace Sys2Proof.Machine

/-- A host write to CMD (R20, R73): the decoded command's meaning, or BadCommand for an illegal word (R75). -/
def issueWord (w : Word) (s : State) : Host.Outcome State Fault Refusal :=
  match decode w with
  | .ok i => exec i s
  | .error _ => .next (badCommand w s)

/-- A host write to STATUS (R21): bit 1 = 1 clears DONE, nothing else has an effect. -/
def writeStatus (v : Word) (s : State) : State :=
  if v.getLsbD 1 then { s with status := { s.status with done := false } } else s

/-- A host write to CTRL (R22): IRQ_EN takes bit 0, then bit 1 = 1 performs a soft reset. -/
def writeCtrl (v : Word) (s : State) : State :=
  let t := { s with ctrl := { irqEn := v.getLsbD 0 } }
  if v.getLsbD 1 then softReset t else t

/-- An aligned 32-bit host write of v to a register (R17, R18). CMD, STATUS and CTRL act; the six general registers
store (R23); a register marked R ignores the write. -/
def writeRegister (r : Reg) (v : Word) (s : State) : Host.Outcome State Fault Refusal :=
  match r with
  | .cmd => issueWord v s
  | .status => .next (writeStatus v s)
  | .ctrl => .next (writeCtrl v s)
  | .src => .next { s with src := v }
  | .cnt => .next { s with cnt := v }
  | .val => .next { s with val := v }
  | .ibufLen => .next { s with ibufLen := v }
  | .cursor => .next { s with cursor := v }
  | .optr => .next { s with optr := v }
  | .crcState => .next s
  | .crcOut => .next s
  | .result => .next s
  | .chunkLen => .next s
  | .chunkType => .next s
  | .chunkCrc => .next s
  | .calcCrc => .next s
  | .dataOff => .next s
  | .dataLen => .next s
  | .chunkCount => .next s
  | .errInfo => .next s
  | .typeFlags => .next s

/-- An aligned 32-bit host write at a byte offset: unmapped offsets ignore it (R19). -/
def writeWindow (off : BitVec 8) (v : Word) (s : State) : Host.Outcome State Fault Refusal :=
  match Reg.atOffset off with
  | some r => writeRegister r v s
  | none => .next s

/-- The value of an aligned 32-bit host read at a byte offset: unmapped offsets read 0 (R18, R19). -/
def readWindow (off : BitVec 8) (s : State) : Word :=
  match Reg.atOffset off with
  | some r => s.reg r
  | none => 0

/-- Why a host register access has no meaning, if it has none: it is not 32 bits wide, or misaligned (R18, D40). -/
def windowRefusal (width : AccessWidth) (off : BitVec 8) : Option Refusal :=
  if width ≠ .word then some .registerAccessNotWord
  else if off.toNat % 4 ≠ 0 then some .registerAccessMisaligned
  else none

/-- The size of a buffer (R44). -/
def bufferSize (b : Buffer) (s : State) : Nat :=
  match b with
  | .ibuf => s.params.ibufSize.bytes
  | .obuf => s.params.obufSize.bytes

/-- The fault for an offset that is no byte of the buffer (R44; log entry 7). -/
def absentFault : Buffer → Fault
  | .ibuf => .ibufOffsetAbsent
  | .obuf => .obufOffsetAbsent

/-- A byte of either buffer (R44). -/
def State.bufferByte (s : State) (b : Buffer) (a : Nat) : Byte :=
  match b with
  | .ibuf => s.ibufByte a
  | .obuf => s.obufByte a

/-- A host byte write to a buffer (R44, R48). -/
def writeBuffer (b : Buffer) (a : Nat) (v : Byte) (s : State) : State :=
  match b with
  | .ibuf => { s with ibuf := Memory.store s.ibuf a v }
  | .obuf => { s with obuf := Memory.store s.obuf a v }

/-- Whether a host access may be made while STATUS.BUSY = 1: only a STATUS read (R125). A power-on reset is no host
access. -/
def allowedWhileBusy : HostAction → Bool
  | .readReg _ off => off == Reg.offset .status
  | .writeReg _ _ _ => false
  | .readByte _ _ => false
  | .writeByte _ _ _ => false
  | .powerOnReset => true

/-- One action of the outside world, as one step (R15). -/
def perform (act : HostAction) (s : State) : Host.Outcome State Fault Refusal :=
  if s.status.busy && !allowedWhileBusy act then .refused .accessWhileBusy
  else
    match act with
    | .readReg width off =>
      match windowRefusal width off with
      | some r => .refused r
      | none => .next { s with lastRead := some (.word (readWindow off s)) }
    | .writeReg width off v =>
      match windowRefusal width off with
      | some r => .refused r
      | none => writeWindow off v s
    | .readByte b a =>
      if bufferSize b s ≤ a.toNat then .fault (absentFault b)
      else .next { s with lastRead := some (.byte (s.bufferByte b a.toNat)) }
    | .writeByte b a v =>
      if bufferSize b s ≤ a.toNat then .fault (absentFault b) else .next (writeBuffer b a.toNat v s)
    | .powerOnReset => .next (powerOnReset s)

/-- `wr REG, v` (R71). -/
def wr (r : Reg) (v : Word) : HostAction := .writeReg .word r.offset v

/-- `rd REG` (R71). -/
def rd (r : Reg) : HostAction := .readReg .word r.offset

/-- `cmd MNEM` (R71). -/
def cmd (i : Instr) : HostAction := wr .cmd (encode i)

/-- `ibuf[a] = b0 b1 ...` (R71). -/
def ibufBytes (a : Nat) : List Byte → List HostAction
  | [] => []
  | v :: vs => .writeByte .ibuf (toWord a) v :: ibufBytes (a + 1) vs

/-- `obuf[a..b)` (R71). -/
def obufRange (a b : Nat) : List HostAction :=
  (List.range (b - a)).map fun i => .readByte .obuf (toWord (a + i))

/-- `wait` (R71): one read of STATUS, since DONE is already 1 after a command. -/
def hostWait : HostAction := rd .status

/-- `crc32 a, n` (R72). -/
def pseudoCrc32 (a n : Word) : List HostAction :=
  [wr .src a, wr .cnt n, cmd .crcInit, cmd .crcBuf, rd .crcOut]

/-- `emit_u32 v` (R72). -/
def pseudoEmitU32 (v : Word) : List HostAction := [wr .val v, cmd .stBe32]

/-- `emit_chunk t, a, n` (R72), the tag packed as R34 says. -/
def pseudoEmitChunk (t : Quad) (a n : Word) : List HostAction :=
  [wr .val (be32 t), wr .src a, wr .cnt n, cmd .chkEmit]

/-- `begin_png` (R72). -/
def pseudoBeginPng : List HostAction := [wr .optr 0, cmd .sigWr]

/-- `parse_png n` (R72). -/
def pseudoParsePng (n : Word) : List HostAction := [wr .ibufLen n, cmd .pngParse]

/-- `check_tag t` (R72). -/
def pseudoCheckTag (t : Quad) : List HostAction := [wr .val (be32 t), cmd .typeChk]

end Sys2Proof.Machine
end

