-- ==== Sys2Proof/Machine/Step.lean ====
section
/-! DEFINITION. The step: the block fetches nothing (10_state.md R43); a step is the outside world's next action
(00_scope.md R15). -/

namespace Sys2Proof.Machine

/-- One step: the first pending action, taken off the list, is performed. With none pending the block keeps its state
(R119; log entry 5). -/
def step (s : State) : Host.Outcome State Fault Refusal :=
  match s.pending with
  | [] => .next s
  | act :: rest => perform act { s with pending := rest }

/-- The host's very next action is a write of the low `nbits` bits of `w` to CMD, so the next step runs that command
(R43, R73; log entry 4). -/
def State.withFetchWord (s : State) (nbits w : Nat) : State :=
  { s with pending := .writeReg .word (Reg.offset .cmd) (BitVec.ofNat 32 (w % 2 ^ nbits)) :: s.pending }

end Sys2Proof.Machine
end

