-- ==== Sys2Proof/Safety.lean ====
section
/-! DEFINITION. The terms claims use: the invariant of the block's state, the accesses a host may make, how a command
ended, the registers a command may write (10_state.md R42), the host's container walk (44_container.md R104), and
a sequence of chunk emissions (R103). -/

namespace Sys2Proof.Machine

/-- The memory part of the invariant: the list is in its canonical form and lists only bytes that exist (R44). -/
abbrev Memory.within (m : Memory) (size : Nat) : Prop := Memory.wf m ∧ ∀ c ∈ m, c.1 < size

/-- What holds of the block at every step boundary. -/
structure State.Inv (s : State) : Prop where
  /-- IBUF's list is canonical and within IBUF_SIZE (R44). -/
  ibuf : Memory.within s.ibuf s.params.ibufSize.bytes
  /-- OBUF's list is canonical and within OBUF_SIZE (R44). -/
  obuf : Memory.within s.obuf s.params.obufSize.bytes
  /-- STATUS.BUSY is 0 at every step boundary (R21, R46). -/
  idle : s.status.busy = false
  /-- ERR = 1 exactly when ERRCODE is not 0 (R21). -/
  errIff : s.status.err = true ↔ s.status.errcode ≠ 0
  /-- ERRCODE is 0 or a code that the block raises: never 2, 6 or 10 to 15 (R106). -/
  errcode : s.status.errcode ∈ ([0, 1, 3, 4, 5, 7, 8, 9] : List (BitVec 4))
  /-- Only a raise writes a value other than 0 to ERR_INFO (R40). -/
  errInfo : s.status.err = false → s.errInfo = 0
  /-- BufferBounds goes with the value 0 (R106). -/
  boundsInfo : s.status.errcode = 9 → s.errInfo = 0
  /-- The end of input is not an error (R101). -/
  eoiNoErr : s.status.eoi = true → s.status.err = false
  /-- Only CHK_NEXT and PNG_PARSE set EOI (R21). -/
  eoiCmd : s.status.eoi = true → s.cmd = 0x21 ∨ s.cmd = 0x23
  /-- BadCommand is recorded exactly while CMD holds an illegal word (R75, R111), which ERR_INFO holds too (R106). -/
  badCommand : s.status.errcode = 8 ↔ legal s.cmd = false
  /-- ERR_INFO is the illegal word (R75). -/
  badCommandInfo : s.status.errcode = 8 → s.errInfo = s.cmd
  /-- TYPE_FLAGS bits 31:6 are reserved and 0 (R41). -/
  flagsReserved : s.typeFlags.toNat < 64
  /-- TYPE_FLAGS.VALID is CRITICAL AND NOT PUBLIC AND RESERVED_OK AND SAFE_COPY (R41). -/
  flagsValid : s.typeFlags.getLsbD 4 =
    (s.typeFlags.getLsbD 0 && !s.typeFlags.getLsbD 1 && s.typeFlags.getLsbD 2 && s.typeFlags.getLsbD 3)

/-- An access that has a meaning: an aligned 32-bit register access (R18), a byte that exists (R44), a power-on. -/
def HostAction.meaningful (s : State) : HostAction → Prop
  | .readReg width off => width = .word ∧ off.toNat % 4 = 0
  | .writeReg width off _ => width = .word ∧ off.toNat % 4 = 0
  | .readByte b a => a.toNat < bufferSize b s
  | .writeByte b a _ => a.toNat < bufferSize b s
  | .powerOnReset => True

/-- STATUS after a command that raised no error: DONE alone, or DONE and EOI (R74, 95_test_vectors.md). -/
def Status.success (eoi : Bool) : Status := { busy := false, done := true, err := false, eoi := eoi, errcode := 0 }

/-- STATUS after a command that raised error kind k (R107). -/
def Status.failure (k : ErrorKind) : Status := { busy := false, done := true, err := true, eoi := false, errcode := k.code }

/-- The end of a command whose word is w, with STATUS and ERR_INFO as given, after the writes that made s (R73). -/
def ended (w : Word) (st : Status) (info : Word) (s : State) : State := { s with cmd := w, status := st, errInfo := info }

/-- The end of a command without an error and without EOI (R74). -/
def succeeded (w : Word) (s : State) : State := ended w (Status.success false) 0 s

/-- The end of a command that raised kind k with a value (R107). -/
def failed (w : Word) (k : ErrorKind) (info : Word) (s : State) : State := ended w (Status.failure k) info s

/-- The first byte of a tag that is not alphabetic, t0 first (R85). -/
def firstBadByte (t : Quad) : Option Byte := t.toList.find? fun b => !isAlpha b

/-- The declared length of the chunk at IBUF[p] (R91, R101). -/
def declaredLength (s : State) (p : Nat) : Nat := (be32 (memRead4 s p)).toNat

/-- The chunk at IBUF[p] fits in the input that ends at e: 12 bytes remain, and the declared chunk (R101). -/
abbrev framed (s : State) (e p : Nat) : Prop := 12 ≤ e - p ∧ 12 + declaredLength s p ≤ e - p

/-- The declared CRC of the chunk at IBUF[p] is the recomputed one (R91). -/
abbrev crcMatches (s : State) (p : Nat) : Prop :=
  be32 (memRead4 s (p + 8 + declaredLength s p)) =
    crc32 ((memRead4 s (p + 4)).toList ++ memRead s (p + 8) (declaredLength s p))

/-- The walk accepts the chunk at IBUF[p] (R101): it is framed, its tag is alphabetic and its CRC matches. -/
abbrev goodChunk (s : State) (e p : Nat) : Prop :=
  framed s e p ∧ firstBadByte (memRead4 s (p + 4)) = none ∧ crcMatches s p

/-- n good chunks, one after the other, lie in IBUF[p .. q) of the input that ends at e (R98, R102). -/
def goodChunks (s : State) (e : Nat) : Nat → Nat → Nat → Prop
  | p, 0, q => p = q
  | p, n + 1, q => goodChunk s e p ∧ goodChunks s e (p + 12 + declaredLength s p) n q

/-- The state with the seven parse registers of the last of n chunks from IBUF[p] on; unchanged if n = 0 (R102). -/
def parsedChunks : State → Nat → Nat → State
  | s, _, 0 => s
  | s, p, n + 1 => parsedChunks (writeParse p (12 + declaredLength s p) s) (p + 12 + declaredLength s p) n

/-- The registers that a command's row of R42 lists, in either column. -/
def commandWrites : Instr → List Reg
  | .nop => []
  | .crcInit => [.crcState]
  | .crcByte _ => [.crcState]
  | .crcBuf => [.crcState]
  | .crcW32 => [.crcState]
  | .typeChk => [.typeFlags]
  | .ldBe32 => [.result]
  | .stBe32 => [.optr]
  | .copy => [.optr]
  | .chkParse => [.chunkLen, .chunkType, .chunkCrc, .calcCrc, .dataOff, .dataLen, .typeFlags]
  | .chkEmit => [.optr, .calcCrc, .typeFlags]
  | .sigChk => [.cursor, .chunkCount]
  | .sigWr => [.optr]
  | .chkNext =>
    [.cursor, .chunkCount, .chunkLen, .chunkType, .chunkCrc, .calcCrc, .dataOff, .dataLen, .typeFlags]
  | .pngParse =>
    [.cursor, .chunkCount, .chunkLen, .chunkType, .chunkCrc, .calcCrc, .dataOff, .dataLen, .typeFlags]

/-- The registers that a command's row of R42 lists as written before a raise of kind k. PNG_PARSE's row refers to
R102; that its CHUNK_COUNT is 0 after BufferBounds too is the model's choice (log entry 17). -/
def commandWritesBeforeRaise : Instr → ErrorKind → List Reg
  | .typeChk, _ => [.typeFlags]
  | .chkParse, .bufferBounds => []
  | .chkParse, .truncated => []
  | .chkParse, _ => [.chunkLen, .chunkType, .chunkCrc, .calcCrc, .dataOff, .dataLen, .typeFlags]
  | .chkEmit, .invalidByte => [.typeFlags]
  | .sigChk, .badSignature => [.cursor, .chunkCount]
  | .chkNext, .invalidByte => [.chunkLen, .chunkType, .chunkCrc, .calcCrc, .dataOff, .dataLen, .typeFlags]
  | .chkNext, .crcMismatch => [.chunkLen, .chunkType, .chunkCrc, .calcCrc, .dataOff, .dataLen, .typeFlags]
  | .pngParse, .badSignature => [.cursor, .chunkCount]
  | .pngParse, .bufferBounds => [.chunkCount]
  | .pngParse, _ =>
    [.cursor, .chunkCount, .chunkLen, .chunkType, .chunkCrc, .calcCrc, .dataOff, .dataLen, .typeFlags]
  | _, _ => []

/-- The error kinds that R106's column `raised by` gives a command. -/
def commandRaises : Instr → List ErrorKind
  | .nop => []
  | .crcInit => []
  | .crcByte _ => []
  | .crcBuf => [.bufferBounds]
  | .crcW32 => []
  | .typeChk => [.invalidByte]
  | .ldBe32 => [.bufferBounds]
  | .stBe32 => [.bufferBounds]
  | .copy => [.bufferBounds]
  | .chkParse => [.bufferBounds, .truncated, .invalidByte, .crcMismatch, .lengthMismatch]
  | .chkEmit => [.bufferBounds, .invalidByte]
  | .sigChk => [.bufferBounds, .badSignature]
  | .sigWr => [.bufferBounds]
  | .chkNext => [.bufferBounds, .truncated, .invalidByte, .crcMismatch]
  | .pngParse => [.bufferBounds, .badSignature, .truncated, .invalidByte, .crcMismatch]

/-- The buffer ranges that a command needs exist (R54): each command's own bounds check (R83, R92 to R96, R99 to R102). -/
def rangesExist (s : State) : Instr → Prop
  | .nop => True
  | .crcInit => True
  | .crcByte _ => True
  | .crcBuf => s.src.toNat + s.cnt.toNat ≤ s.params.ibufSize.bytes
  | .crcW32 => True
  | .typeChk => True
  | .ldBe32 => s.src.toNat + 4 ≤ s.params.ibufSize.bytes
  | .stBe32 => s.optr.toNat + 4 ≤ s.params.obufSize.bytes
  | .copy => s.src.toNat + s.cnt.toNat ≤ s.params.ibufSize.bytes ∧ s.optr.toNat + s.cnt.toNat ≤ s.params.obufSize.bytes
  | .chkParse => s.src.toNat + s.cnt.toNat ≤ s.params.ibufSize.bytes
  | .chkEmit =>
    s.src.toNat + s.cnt.toNat ≤ s.params.ibufSize.bytes ∧ s.optr.toNat + (12 + s.cnt.toNat) ≤ s.params.obufSize.bytes
  | .sigChk => s.ibufLen.toNat ≤ s.params.ibufSize.bytes
  | .sigWr => s.optr.toNat + 8 ≤ s.params.obufSize.bytes
  | .chkNext => s.ibufLen.toNat ≤ s.params.ibufSize.bytes ∧ s.cursor.toNat ≤ s.ibufLen.toNat
  | .pngParse => s.ibufLen.toNat ≤ s.params.ibufSize.bytes

/-- The state an outcome goes on with, if it does. -/
def nextState : Host.Outcome State Fault Refusal → Option State
  | .next t => some t
  | .fault _ => none
  | .refused _ => none

/-- CHK_NEXT repeated until EOI = 1 or ERR = 1, at most `k` times; with the number of chunks accepted (R104). -/
def walkOn : Nat → State → Nat → Option (State × Nat)
  | 0, _, _ => none
  | k + 1, s, n =>
    match nextState (exec .chkNext s) with
    | none => none
    | some t => if t.status.eoi || t.status.err then some (t, n) else walkOn k t (n + 1)

/-- The host walk of R104: SIG_CHK, then CHK_NEXT until EOI = 1 or ERR = 1, at most `k` of them. -/
def hostWalk (k : Nat) (s : State) : Option (State × Nat) :=
  match nextState (exec .sigChk s) with
  | none => none
  | some t => if t.status.err then some (t, 0) else walkOn k t 0

/-- What a host does for one CHK_EMIT: the content it has given IBUF by then, a tag, a data offset in IBUF and a data
length (R72, emit_chunk; R103). -/
structure Emission where
  ibuf : Memory
  tag : Quad
  off : Word
  len : Word
  deriving DecidableEq, Repr

/-- The state in which the host issues an emission's CHK_EMIT (R72, emit_chunk). -/
def Emission.setUp (e : Emission) (s : State) : State :=
  { s with ibuf := e.ibuf, val := be32 e.tag, src := e.off, cnt := e.len }

/-- The bytes an emission's data are in IBUF (R96). -/
def Emission.data (e : Emission) (s : State) : List Byte := memRead { s with ibuf := e.ibuf } e.off.toNat e.len.toNat

/-- The offset at which the chunk after these emissions starts, 8 after the signature (R98, R103). -/
def chunkStart : List Emission → Nat
  | [] => 8
  | e :: es => 12 + e.len.toNat + chunkStart es

/-- The state after `emit_chunk` for each emission in order, if every CHK_EMIT succeeds (R72, R103). -/
def emitAll : List Emission → State → Option State
  | [], s => some s
  | e :: es, s =>
    match nextState (exec .chkEmit (e.setUp s)) with
    | none => none
    | some t => if t.status.err then none else emitAll es t

/-- The emissions that emit again the chunks of a container that lies in IBUF, the first of them at offset `p` (R103):
the tags and lengths are those of `es`, the data 8 bytes after each chunk's start. -/
def reEmissions (ibuf : Memory) : Nat → List Emission → List Emission
  | _, [] => []
  | p, e :: es => ⟨ibuf, e.tag, toWord (p + 8), e.len⟩ :: reEmissions ibuf (p + 12 + e.len.toNat) es

end Sys2Proof.Machine
end

