-- ==== Sys2Proof/Certificates/Slice0/Obligations.lean ====
section
/-! DEFINITION. The statements for the provers, from the numbered rules of spec/. `ended`, `succeeded` and `failed` are
the next state of a command as R73, R74 and R107 give it, so an equation with one of them states the whole frame: every
field it does not name is unchanged. Where a step is stated, the action it performs is the first of the list `pending`,
the model's own way to hold what the outside world does (log entry 4). -/

open Sys2Proof Sys2Proof.Machine

/-! ## Reset and boot (70_reset_and_hazards.md, 10_state.md) -/

/-- R121: after a power-on every register has its reset value (CRC_STATE 0xFFFFFFFF, every other 0), IRQ is 0, every
byte of both buffers is an unconstrained draw, and no command was issued; the machine's reset state is such a state.
The draw is a free value, so nothing is claimed of it but that a new power-on draws anew (log entry 2). -/
def Obligations.PowerOnResetGivesTheResetColumn : Prop :=
  (∀ (s : State) (rest : List HostAction), ∃ t, step { s with pending := .powerOnReset :: rest } = .next t ∧
    (∀ r, t.reg r = if r = .crcState then 0xFFFFFFFF else 0) ∧ irq t = false ∧
    (∀ b a, t.bufferByte b a = Config.powerOnByte b (s.powerOns + 1) a) ∧
    t.params = s.params ∧ t.pending = rest) ∧
  (∀ r, State.reset.reg r = if r = .crcState then 0xFFFFFFFF else 0) ∧ irq State.reset = false ∧
  (∀ b a, State.reset.bufferByte b a = Config.powerOnByte b 0 a)

/-- R122: a host write to CTRL with bit 1 = 1 puts every register, CTRL and CMD included, at its reset value and IRQ at
0 in the same step, keeps both buffers, issues no command and sets no STATUS bit; SRST reads 0 in every state. -/
def Obligations.SoftResetKeepsTheBuffers : Prop :=
  (∀ (s : State) (w : Word) (rest : List HostAction), s.status.busy = false → w.getLsbD 1 = true →
    ∃ t, step { s with pending := wr .ctrl w :: rest } = .next t ∧
      (∀ r, t.reg r = if r = .crcState then 0xFFFFFFFF else 0) ∧ irq t = false ∧
      (∀ b a, t.bufferByte b a = s.bufferByte b a) ∧ t.params = s.params ∧ t.pending = rest) ∧
  ∀ s : State, (s.reg .ctrl).getLsbD 1 = false

/-- The reset state meets the invariant. -/
def Obligations.ResetStateMeetsTheInvariant : Prop := State.reset.Inv

/-- Every step keeps the invariant: the buffers' lists stay canonical and within the buffers, BUSY reads 0, ERR = 1
exactly when ERRCODE is not 0, ERRCODE is a code the block raises, ERR_INFO is 0 without an error, EOI is no error and
comes from CHK_NEXT or PNG_PARSE, BadCommand is recorded exactly while CMD is an illegal word, and TYPE_FLAGS keeps its
reserved bits 0 and its VALID bit. -/
def Obligations.EveryStepKeepsTheInvariant : Prop :=
  ∀ s t : State, s.Inv → step s = .next t → t.Inv

/-! ## The command word (30_encoding.md) -/

/-- Decoding and encoding agree in both directions: a word decodes to a command exactly when it is that command's
word, so no legal word has two readings and no command two words. -/
def Obligations.DecodeAndEncodeAgree : Prop :=
  ∀ (w : Word) (i : Instr), decode w = .ok i ↔ encode i = w

/-- R68: a word selects a command exactly when w[31:16] = 0, w[7:0] is an assigned opcode, and w[15:8] = 0 unless the
opcode is 0x02; the command is the one whose opcode is w[7:0] in R67; every other word is rejected, and issuing it raises
BadCommand(w). -/
def Obligations.DecodeAcceptsExactlyTheLegalWords : Prop :=
  ∀ w : Word,
    ((∃ i, decode w = .ok i) ↔
      w.extractLsb' 16 16 = 0 ∧
      w.extractLsb' 0 8 ∈ ([0x00, 0x01, 0x02, 0x03, 0x04, 0x08, 0x09, 0x0A, 0x10, 0x18, 0x19, 0x20, 0x21, 0x22,
        0x23] : List Byte) ∧
      (w.extractLsb' 0 8 = 0x02 ∨ w.extractLsb' 8 8 = 0)) ∧
    (∀ i, decode w = .ok i → (encode i).extractLsb' 0 8 = w.extractLsb' 0 8) ∧
    ((∃ i, decode w = .ok i) ∨
      ∃ e, decode w = .error e ∧ ∀ s : State, issueWord w s = .next (failed w .badCommand w s))

/-- Words written out from R64 and R67 decode to their commands. -/
def Obligations.OpcodeMapWordsDecode : Prop :=
  decode 0x00000000 = .ok .nop ∧ decode 0x00000001 = .ok .crcInit ∧ decode 0x00006102 = .ok (.crcByte 0x61) ∧
  decode 0x00000010 = .ok .typeChk ∧ decode 0x00000009 = .ok .stBe32 ∧ decode 0x00000022 = .ok .chkEmit ∧
  decode 0x00000021 = .ok .chkNext ∧ decode 0x00000023 = .ok .pngParse ∧
  decode 0x00000101 = .error .nonzeroImmediate ∧ decode 0x00010000 = .error .nonzeroReserved ∧
  decode 0x00000005 = .error .unassignedOpcode

/-! ## The command cycle (40_command_cycle.md) -/

/-- A step runs the decoded command: when the next action is an aligned 32-bit write of a word to CMD, and the word
decodes to i, the step is exec of i on the state with that action taken off. -/
def Obligations.StepRunsTheIssuedCommand : Prop :=
  ∀ (s : State) (w : Word) (i : Instr) (rest : List HostAction), s.status.busy = false → decode w = .ok i →
    step { s with pending := .writeReg .word 0x00 w :: rest } = exec i { s with pending := rest }

/-- With no action pending the step keeps the state. The model's choice (log entry 5). -/
def Obligations.IdleStepKeepsTheState : Prop :=
  ∀ s : State, s.pending = [] → step s = .next s

/-- R75: issuing an illegal word raises BadCommand(w): CMD = w, STATUS.ERR = 1, ERRCODE = 8, ERR_INFO = w, and nothing
else changes; with the rule's three corner words. -/
def Obligations.IllegalWordOnlyReportsBadCommand : Prop :=
  (∀ (s : State) (w : Word) (rest : List HostAction), s.status.busy = false → legal w = false →
    step { s with pending := wr .cmd w :: rest } = .next (failed w .badCommand w { s with pending := rest })) ∧
  (Status.failure .badCommand).toWord = 0x00000086 ∧
  legal 0x00010000 = false ∧ decode 0x00000102 = .ok (.crcByte 0x01) ∧ legal 0x00000101 = false

/-- Every word written to CMD, legal or not, has a next state: CMD holds the word, BUSY is 0, DONE is 1, and the IRQ
line equals IRQ_EN (R73, R74, R120). -/
def Obligations.EveryCommandWordCompletes : Prop :=
  ∀ (s : State) (w : Word) (rest : List HostAction), s.status.busy = false →
    ∃ t, step { s with pending := wr .cmd w :: rest } = .next t ∧ t.cmd = w ∧ t.status.busy = false ∧
      t.status.done = true ∧ irq t = s.ctrl.irqEn ∧ t.ctrl = s.ctrl ∧ t.pending = rest ∧ t.params = s.params

/-- A command's issue clears the record of the one before (R73, R112): what a command does is the same whatever CMD,
STATUS and ERR_INFO held, so a second error can only replace a record that is cleared. -/
def Obligations.IssueForgetsTheOldRecord : Prop :=
  ∀ (i : Instr) (s : State) (w info : Word) (st : Status),
    exec i { s with cmd := w, status := st, errInfo := info } = exec i s

/-- R76: from any state NOP gives STATUS = 0x00000002 and ERR_INFO = 0, and changes no other register than CMD. -/
def Obligations.NopOnlyClearsTheRecord : Prop :=
  ∀ s : State, exec .nop s = .next (succeeded 0x00000000 s) ∧ (Status.success false).toWord = 0x00000002

/-- Every command writes only the registers of its row of R42 (and CMD, STATUS and ERR_INFO by the cycle): in general,
and before a raise only those its row lists for that error; CRC_OUT moves with CRC_STATE only. No command writes
IBUF, and only ST_BE32, COPY, SIG_WR and CHK_EMIT write OBUF. The spec marks R42 as derived from the commands' rules.
That PNG_PARSE's BufferBounds writes CHUNK_COUNT is the model's choice (log entry 17). -/
def Obligations.CommandsWriteOnlyTheirRow : Prop :=
  ∀ (i : Instr) (s t : State), exec i s = .next t →
    (∀ r, r ∉ ([.cmd, .status, .errInfo] : List Reg) → r ∉ commandWrites i →
      ¬ (r = .crcOut ∧ Reg.crcState ∈ commandWrites i) → t.reg r = s.reg r) ∧
    (∀ k, t.status = Status.failure k → ∀ r, r ∉ ([.cmd, .status, .errInfo] : List Reg) →
      r ∉ commandWritesBeforeRaise i k → t.reg r = s.reg r) ∧
    (∀ a, t.ibufByte a = s.ibufByte a) ∧
    (i ∉ ([.stBe32, .copy, .sigWr, .chkEmit] : List Instr) → ∀ a, t.obufByte a = s.obufByte a) ∧
    t.params = s.params ∧ t.pending = s.pending ∧ t.lastRead = s.lastRead ∧ t.powerOns = s.powerOns

/-- Errors are precise (R108): when a command ends with ERR = 1, every register that its row of R42 does not list for
that error holds its old value, and no byte of either buffer has changed. That PNG_PARSE's BufferBounds writes
CHUNK_COUNT is the model's choice (log entry 17). -/
def Obligations.ErrorsArePrecise : Prop :=
  ∀ (i : Instr) (s t : State), exec i s = .next t → t.status.err = true →
    ∃ k, t.status = Status.failure k ∧ k ∈ commandRaises i ∧
      (∀ r, r ∉ ([.cmd, .status, .errInfo] : List Reg) → r ∉ commandWritesBeforeRaise i k → t.reg r = s.reg r) ∧
      (∀ b a, t.bufferByte b a = s.bufferByte b a)

/-- The kinds a command raises are those of R106's column `raised by`, with R106's codes: a command ends without ERR and
without a code and value, or with a kind of its row; BufferBounds has the value 0. -/
def Obligations.CommandsRaiseOnlyTheirKinds : Prop :=
  (∀ (i : Instr) (s t : State), exec i s = .next t →
    (t.status.err = false ∧ t.status.errcode = 0 ∧ t.errInfo = 0) ∨
    ∃ k ∈ commandRaises i, t.status = Status.failure k ∧ (k = .bufferBounds → t.errInfo = 0)) ∧
  (Status.failure .invalidByte).toWord = 0x00000016 ∧ (Status.failure .crcMismatch).toWord = 0x00000036 ∧
  (Status.failure .lengthMismatch).toWord = 0x00000046 ∧ (Status.failure .badSignature).toWord = 0x00000056 ∧
  (Status.failure .truncated).toWord = 0x00000076 ∧ (Status.failure .badCommand).toWord = 0x00000086 ∧
  (Status.failure .bufferBounds).toWord = 0x00000096 ∧ (Status.success true).toWord = 0x0000000A

/-- No command reads OBUF (R48, R49): with any other content of OBUF a command gives the same registers, and the same
bytes wherever it writes. -/
def Obligations.CommandsNeverReadObuf : Prop :=
  ∀ (i : Instr) (s t : State) (m : Memory), exec i s = .next t →
    ∃ u, exec i { s with obuf := m } = .next u ∧ { u with obuf := t.obuf } = t ∧
      ∀ a, u.obufByte a = t.obufByte a ∨
        (u.obufByte a = ({ s with obuf := m } : State).obufByte a ∧ t.obufByte a = s.obufByte a)

/-! ## The CRC generator (41_crc.md) -/

/-- R81: CRC_INIT sets CRC_STATE to 0xFFFFFFFF and changes nothing else but the report, CRC_OUT then reads 0, and a
second CRC_INIT changes nothing. -/
def Obligations.CrcInitStartsANewCrc : Prop :=
  ∀ s : State,
    let t := succeeded 0x00000001 { s with crcState := 0xFFFFFFFF }
    exec .crcInit s = .next t ∧ t.reg .crcOut = 0x00000000 ∧ exec .crcInit t = .next t

/-- R82, for every byte: the word is legal, CRC_STATE steps by the byte, nothing else but the report changes; with the
rule's corner case and example. -/
def Obligations.CrcByteFeedsItsImmediate : Prop :=
  (∀ (b : Byte) (s : State),
    legal (b.setWidth 32 <<< 8 ||| 0x02) = true ∧
    exec (.crcByte b) s = .next (succeeded (b.setWidth 32 <<< 8 ||| 0x02) { s with crcState := crcStep s.crcState b })) ∧
  crcStep 0xFFFFFFFF 0x00 = 0x2DFD1072 ∧ crcStep 0xFFFFFFFF 0x61 = 0x174841BC ∧
  (0x174841BC : Word) ^^^ 0xFFFFFFFF = 0xE8B7BE43

/-- R83: CRC_BUF feeds the CNT bytes from IBUF[SRC] in order, or raises BufferBounds(0) when the exact sum exceeds
IBUF_SIZE; CNT = 0 leaves CRC_STATE; and feeding a range in two CRC_BUFs gives the same register as feeding it in one. -/
def Obligations.CrcBufFeedsTheRange : Prop :=
  (∀ s : State,
    let fed := (List.range s.cnt.toNat).foldl (fun c i => crcStep c (s.ibufByte (s.src.toNat + i))) s.crcState
    exec .crcBuf s = .next
      (if s.src.toNat + s.cnt.toNat ≤ s.params.ibufSize.bytes then succeeded 0x00000003 { s with crcState := fed }
      else failed 0x00000003 .bufferBounds 0 s)) ∧
  ∀ (s : State) (n₁ n₂ : Nat), n₁ + n₂ = s.cnt.toNat → s.src.toNat + s.cnt.toNat ≤ s.params.ibufSize.bytes →
    ∃ t u v, exec .crcBuf { s with cnt := toWord n₁ } = .next t ∧
      exec .crcBuf { t with src := toWord (s.src.toNat + n₁), cnt := toWord n₂ } = .next u ∧
      exec .crcBuf s = .next v ∧
      u.crcState = v.crcState ∧ u.status = v.status ∧ (n₁ = 0 → t.crcState = s.crcState)

/-- R84: the four bytes of VAL are fed, v[31:24] first; with the corner case VAL = 0. -/
def Obligations.CrcW32FeedsValBigEndian : Prop :=
  ∀ s : State,
    let c₁ := crcStep s.crcState (s.val.extractLsb' 24 8)
    let c₂ := crcStep c₁ (s.val.extractLsb' 16 8)
    let c₃ := crcStep c₂ (s.val.extractLsb' 8 8)
    let c₄ := crcStep c₃ (s.val.extractLsb' 0 8)
    exec .crcW32 s = .next (succeeded 0x00000004 { s with crcState := c₄ }) ∧
      (s.val = 0 → s.crcState = 0xFFFFFFFF → c₄ = 0xDEBB20E3)

/-- The byte-table form of R78 equals the bit-serial form: crc_step(c, b) = (c >> 8) XOR T[(c XOR b)[7:0]] with
T[n] = crc_step(0, n). -/
def Obligations.CrcStepHasATableForm : Prop :=
  ∀ (c : Word) (b : Byte),
    crcStep c b = (c >>> 8) ^^^ crcStep 0 ((c ^^^ b.setWidth 32).extractLsb' 0 8)

/-- R80: a change to one byte of the covered sequence always changes crc32. The spec gives it from general knowledge; here
it is a property of R78 and R79. -/
def Obligations.OneByteChangeChangesTheCrc : Prop :=
  ∀ (before after : List Byte) (b b' : Byte), b ≠ b' →
    crc32 (before ++ b :: after) ≠ crc32 (before ++ b' :: after)

/-- The check value and the residue of R77, the empty sequence and "IEND" of R79, and two table entries of R78. -/
def Obligations.CrcReferenceValues : Prop :=
  crc32 [0x31, 0x32, 0x33, 0x34, 0x35, 0x36, 0x37, 0x38, 0x39] = 0xCBF43926 ∧
  crcFeed 0xFFFFFFFF [0x31, 0x32, 0x33, 0x34, 0x35, 0x36, 0x37, 0x38, 0x39, 0x26, 0x39, 0xF4, 0xCB] = 0xDEBB20E3 ∧
  crc32 [] = 0x00000000 ∧ crc32 [0x49, 0x45, 0x4E, 0x44] = 0xAE426082 ∧
  crcStep 0 1 = 0x77073096 ∧ crcStep 0 128 = 0xEDB88320

/-! ## Type tags (42_type_tag.md) -/

/-- R13: the letters are exactly 0x41 to 0x5A and 0x61 to 0x7A, the upper case ones the first range and the lower case
ones the second, and a byte that is no letter is neither. -/
def Obligations.LettersAreTheAsciiRanges : Prop :=
  ∀ b : Byte,
    (isAlpha b = true ↔ (0x41 ≤ b.toNat ∧ b.toNat ≤ 0x5A) ∨ (0x61 ≤ b.toNat ∧ b.toNat ≤ 0x7A)) ∧
    (isUpper b = true ↔ 0x41 ≤ b.toNat ∧ b.toNat ≤ 0x5A) ∧
    (isLower b = true ↔ 0x61 ≤ b.toNat ∧ b.toNat ≤ 0x7A) ∧
    (isAlpha b = false → isUpper b = false ∧ isLower b = false)

/-- R89: TYPE_FLAGS takes the flags of VAL's four bytes; then the first byte that is not alphabetic, if any, is
reported; with the rule's corner cases and example: VAL = 0, the bytes just outside the letter ranges, the bytes that
differ from letters in bit 7 only, the four ends of the ranges, "IEND", which has VALID = 0 and raises nothing, and
"RuSt". -/
def Obligations.TypeChkReportsTheFirstBadByte : Prop :=
  ∀ s : State,
    exec .typeChk s = .next
      (match ([s.val.extractLsb' 24 8, s.val.extractLsb' 16 8, s.val.extractLsb' 8 8,
          s.val.extractLsb' 0 8] : List Byte).find? (fun b => !isAlpha b) with
      | some b => failed 0x00000010 .invalidByte (b.setWidth 32) { s with typeFlags := tagFlags (be32bytes s.val) }
      | none => succeeded 0x00000010 { s with typeFlags := tagFlags (be32bytes s.val) }) ∧
    (s.val = 0 → exec .typeChk s = .next (failed 0x00000010 .invalidByte 0x00000000 { s with typeFlags := 0 })) ∧
    (∀ b : Byte, s.val.extractLsb' 24 8 = b →
      b ∈ ([0x40, 0x5B, 0x60, 0x7B] : List Byte) ∨ (0xC1 ≤ b.toNat ∧ b.toNat ≤ 0xDA) ∨
        (0xE1 ≤ b.toNat ∧ b.toNat ≤ 0xFA) →
      exec .typeChk s = .next
        (failed 0x00000010 .invalidByte (b.setWidth 32) { s with typeFlags := tagFlags (be32bytes s.val) })) ∧
    (s.val = 0x415A617A → exec .typeChk s = .next (succeeded 0x00000010 { s with typeFlags := 0x0000002B })) ∧
    (s.val = 0x49454E44 → exec .typeChk s = .next (succeeded 0x00000010 { s with typeFlags := 0x00000027 })) ∧
    (s.val = 0x52755374 → exec .typeChk s = .next (succeeded 0x00000010 { s with typeFlags := 0x0000003D }))

/-- R86, bit by bit, on every four bytes: CRITICAL, PUBLIC, RESERVED_OK, SAFE_COPY, VALID, ALPHA, and 0 above. -/
def Obligations.TagFlagsBitByBit : Prop :=
  ∀ t : Quad, ∀ j,
    (tagFlags t).getLsbD j =
      match j with
      | 0 => isUpper t.b0
      | 1 => isUpper t.b1
      | 2 => isUpper t.b2
      | 3 => isLower t.b3
      | 4 => isUpper t.b0 && !isUpper t.b1 && isUpper t.b2 && isLower t.b3
      | 5 => isAlpha t.b0 && isAlpha t.b1 && isAlpha t.b2 && isAlpha t.b3
      | _ => false

/-- R87: on alphabetic bytes the case is bit 5, so on a well-formed tag the four flags are bits 5 of its bytes. The
spec marks it as derived from R13. -/
def Obligations.CaseIsBitFiveOfALetter : Prop :=
  (∀ b : Byte, isAlpha b = true → (isUpper b = true ↔ b.getLsbD 5 = false) ∧ (isLower b = true ↔ b.getLsbD 5 = true)) ∧
  ∀ t : Quad, isAlpha t.b0 = true → isAlpha t.b1 = true → isAlpha t.b2 = true → isAlpha t.b3 = true →
    (tagFlags t).getLsbD 0 = !t.b0.getLsbD 5 ∧ (tagFlags t).getLsbD 1 = !t.b1.getLsbD 5 ∧
    (tagFlags t).getLsbD 2 = !t.b2.getLsbD 5 ∧ (tagFlags t).getLsbD 3 = t.b3.getLsbD 5

/-! ## Fields, copy, chunks (43_chunk.md) -/

/-- R10: be32 puts s[0] in the most significant byte, be32bytes gives v[31:24] first, and each undoes the other. -/
def Obligations.BigEndianFieldsAreInverse : Prop :=
  (∀ v : Word, be32bytes v = ⟨v.extractLsb' 24 8, v.extractLsb' 16 8, v.extractLsb' 8 8, v.extractLsb' 0 8⟩) ∧
  (∀ v : Word, be32 (be32bytes v) = v) ∧ (∀ q : Quad, be32bytes (be32 q) = q) ∧
  ∀ q : Quad, (be32 q).toNat = q.b0.toNat * 2 ^ 24 + q.b1.toNat * 2 ^ 16 + q.b2.toNat * 2 ^ 8 + q.b3.toNat

/-- R54, for every command: when a range it needs does not exist, in exact arithmetic, it raises BufferBounds(0) and writes
nothing, but for PNG_PARSE, whose CHUNK_COUNT is 0 after every failure (R39, R102); when the ranges exist it never reports
BufferBounds; an empty range at the very end exists. That CHUNK_COUNT is 0 after PNG_PARSE's BufferBounds is the model's
choice between two readings of the spec (log entry 17). -/
def Obligations.BufferBoundsExactlyOnAbsentRanges : Prop :=
  (∀ (i : Instr) (s : State),
    (¬ rangesExist s i → exec i s = .next (failed (encode i) .bufferBounds 0
      { s with chunkCount := if i = .pngParse then 0 else s.chunkCount })) ∧
    (rangesExist s i → ∃ t, exec i s = .next t ∧ t.status ≠ Status.failure .bufferBounds)) ∧
  ∀ s : State, s.src.toNat = s.params.ibufSize.bytes → s.optr.toNat = s.params.obufSize.bytes → s.cnt = 0 →
    exec .copy s = .next (succeeded 0x0000000A s)

/-- R92: LD_BE32 reads the big-endian field at any offset, or raises BufferBounds(0). -/
def Obligations.LdBe32ReadsABigEndianField : Prop :=
  ∀ s : State,
    let a := s.src.toNat
    let field : Word := s.ibufByte a ++ s.ibufByte (a + 1) ++ s.ibufByte (a + 2) ++ s.ibufByte (a + 3)
    exec .ldBe32 s = .next
      (if a + 4 ≤ s.params.ibufSize.bytes then succeeded 0x00000008 { s with result := field }
      else failed 0x00000008 .bufferBounds 0 s)

/-- R93: within OBUF, ST_BE32 writes the four bytes of VAL at OPTR, most significant first, leaves every other byte
and advances OPTR by 4; otherwise it raises BufferBounds(0) and writes nothing. -/
def Obligations.StBe32WritesABigEndianField : Prop :=
  (∀ s : State, s.optr.toNat + 4 ≤ s.params.obufSize.bytes →
    ∃ t, exec .stBe32 s = .next t ∧
      t = succeeded 0x00000009 { s with obuf := t.obuf, optr := BitVec.ofNat 32 (s.optr.toNat + 4) } ∧
      t.optr.toNat = s.optr.toNat + 4 ∧
      (∀ i : Fin 4, t.obufByte (s.optr.toNat + i) = s.val.extractLsb' (24 - 8 * i.val) 8) ∧
      ∀ x, x < s.optr.toNat ∨ s.optr.toNat + 4 ≤ x → t.obufByte x = s.obufByte x) ∧
  ∀ s : State, s.params.obufSize.bytes < s.optr.toNat + 4 → exec .stBe32 s = .next (failed 0x00000009 .bufferBounds 0 s)

/-- R94: when both ranges exist COPY copies the CNT bytes from IBUF[SRC] to OBUF[OPTR] unchanged, leaves every other byte
and advances OPTR; otherwise it raises BufferBounds(0) and writes nothing. -/
def Obligations.CopyMovesTheRange : Prop :=
  (∀ s : State, s.src.toNat + s.cnt.toNat ≤ s.params.ibufSize.bytes →
    s.optr.toNat + s.cnt.toNat ≤ s.params.obufSize.bytes →
    ∃ t, exec .copy s = .next t ∧
      t = succeeded 0x0000000A { s with obuf := t.obuf, optr := BitVec.ofNat 32 (s.optr.toNat + s.cnt.toNat) } ∧
      t.optr.toNat = s.optr.toNat + s.cnt.toNat ∧
      (∀ i, i < s.cnt.toNat → t.obufByte (s.optr.toNat + i) = s.ibufByte (s.src.toNat + i)) ∧
      ∀ x, x < s.optr.toNat ∨ s.optr.toNat + s.cnt.toNat ≤ x → t.obufByte x = s.obufByte x) ∧
  ∀ s : State, s.params.ibufSize.bytes < s.src.toNat + s.cnt.toNat ∨
      s.params.obufSize.bytes < s.optr.toNat + s.cnt.toNat →
    exec .copy s = .next (failed 0x0000000A .bufferBounds 0 s)

/-- R95 with R91: CHK_PARSE's checks in their order, bounds, 12 bytes, tag, CRC, length, and the seven registers written
before the last three. -/
def Obligations.ChkParseChecksTagThenCrcThenLength : Prop :=
  ∀ s : State,
    let a := s.src.toNat
    let n := s.cnt.toNat
    let t := memRead4 s (a + 4)
    let u : State := { s with
      chunkLen := be32 (memRead4 s a)
      chunkType := be32 t
      chunkCrc := be32 (memRead4 s (a + n - 4))
      calcCrc := crc32 (t.toList ++ memRead s (a + 8) (n - 12))
      dataOff := BitVec.ofNat 32 (a + 8)
      dataLen := BitVec.ofNat 32 (n - 12)
      typeFlags := tagFlags t }
    exec .chkParse s = .next
      (if s.params.ibufSize.bytes < a + n then failed 0x00000020 .bufferBounds 0 s
      else if n < 12 then failed 0x00000020 .truncated (BitVec.ofNat 32 n) s
      else
        match t.toList.find? (fun b => !isAlpha b) with
        | some b => failed 0x00000020 .invalidByte (b.setWidth 32) u
        | none =>
          if u.chunkCrc ≠ u.calcCrc then failed 0x00000020 .crcMismatch u.calcCrc u
          else if u.chunkLen.toNat ≠ n - 12 then failed 0x00000020 .lengthMismatch (BitVec.ofNat 32 (n - 12)) u
          else succeeded 0x00000020 u)

/-- R96, success: within both bounds and with an alphabetic tag, CHK_EMIT writes length, tag, data and CRC at OPTR, leaves
every other byte, and sets TYPE_FLAGS, CALC_CRC and OPTR. Errors: bounds first, writing nothing; then the tag, after
TYPE_FLAGS is written. -/
def Obligations.ChkEmitSerializesTheChunk : Prop :=
  ∀ s : State,
    let t := be32bytes s.val
    let a := s.src.toNat
    let n := s.cnt.toNat
    let o := s.optr.toNat
    let c := crc32 (t.toList ++ memRead s a n)
    (s.params.ibufSize.bytes < a + n ∨ s.params.obufSize.bytes < o + (12 + n) →
      exec .chkEmit s = .next (failed 0x00000022 .bufferBounds 0 s)) ∧
    (a + n ≤ s.params.ibufSize.bytes → o + (12 + n) ≤ s.params.obufSize.bytes →
      (∀ b, firstBadByte t = some b →
        exec .chkEmit s = .next (failed 0x00000022 .invalidByte (b.setWidth 32) { s with typeFlags := tagFlags t })) ∧
      (firstBadByte t = none →
        ∃ u, exec .chkEmit s = .next u ∧
          u = succeeded 0x00000022 { s with
            obuf := u.obuf, typeFlags := tagFlags t, calcCrc := c, optr := BitVec.ofNat 32 (o + 12 + n) } ∧
          u.optr.toNat = o + 12 + n ∧
          (∀ i : Fin 4, u.obufByte (o + i) = s.cnt.extractLsb' (24 - 8 * i.val) 8) ∧
          (∀ i : Fin 4, u.obufByte (o + 4 + i) = s.val.extractLsb' (24 - 8 * i.val) 8) ∧
          (∀ i, i < n → u.obufByte (o + 8 + i) = s.ibufByte (a + i)) ∧
          (∀ i : Fin 4, u.obufByte (o + 8 + n + i) = c.extractLsb' (24 - 8 * i.val) 8) ∧
          ∀ x, x < o ∨ o + 12 + n ≤ x → u.obufByte x = s.obufByte x))

/-- The round-trip law of R97, part 1: what CHK_EMIT wrote, copied into IBUF at b, parses without an error to the same
tag, data, length and CRC. -/
def Obligations.EmittedChunkParsesBack : Prop :=
  ∀ (s t u : State) (b : Nat), exec .chkEmit s = .next t → t.status.err = false →
    (∀ i, i < 12 + s.cnt.toNat → u.ibufByte (b + i) = t.obufByte (s.optr.toNat + i)) →
    b + (12 + s.cnt.toNat) ≤ u.params.ibufSize.bytes → u.src.toNat = b → u.cnt.toNat = 12 + s.cnt.toNat →
    ∃ v, exec .chkParse u = .next v ∧ v.status = Status.success false ∧ v.errInfo = 0 ∧
      v.chunkLen = s.cnt ∧ v.dataLen = s.cnt ∧ v.chunkType = s.val ∧
      v.chunkCrc = t.calcCrc ∧ v.calcCrc = t.calcCrc ∧
      t.calcCrc = crc32 ((be32bytes s.val).toList ++ memRead s s.src.toNat s.cnt.toNat) ∧
      v.typeFlags = t.typeFlags ∧
      ∀ i, i < s.cnt.toNat → v.ibufByte (v.dataOff.toNat + i) = s.ibufByte (s.src.toNat + i)

/-- The round-trip law of R97, part 2: a slice that CHK_PARSE accepts is written again, byte for byte, by CHK_EMIT with
VAL = CHUNK_TYPE, SRC = DATA_OFF and CNT = DATA_LEN. -/
def Obligations.ParsedChunkEmitsBack : Prop :=
  ∀ (s t : State) (o : Word), exec .chkParse s = .next t → t.status.err = false →
    o.toNat + s.cnt.toNat ≤ s.params.obufSize.bytes →
    ∃ u, exec .chkEmit { t with val := t.chunkType, src := t.dataOff, cnt := t.dataLen, optr := o } = .next u ∧
      u.status = Status.success false ∧ u.optr.toNat = o.toNat + s.cnt.toNat ∧
      ∀ i, i < s.cnt.toNat → u.obufByte (o.toNat + i) = s.ibufByte (s.src.toNat + i)

/-- The single-byte mutation property in its corrected form (C2, R80, R91): in a slice that CHK_PARSE accepts, a change of
one byte of the type or the data makes it fail, with InvalidByte of the new byte if that is a type byte and not
alphabetic, and with CrcMismatch of the recomputed CRC otherwise. -/
def Obligations.OneByteMutationIsCaught : Prop :=
  ∀ (s t : State) (j : Nat) (v : Byte), exec .chkParse s = .next t → t.status.err = false →
    4 ≤ j → j + 4 < s.cnt.toNat → v ≠ s.ibufByte (s.src.toNat + j) →
    ∃ u, exec .chkParse { s with ibuf := Memory.store s.ibuf (s.src.toNat + j) v } = .next u ∧
      (j < 8 ∧ isAlpha v = false → u.status = Status.failure .invalidByte ∧ u.errInfo = v.setWidth 32) ∧
      (¬ (j < 8 ∧ isAlpha v = false) →
        u.status = Status.failure .crcMismatch ∧ u.errInfo = u.calcCrc ∧ u.calcCrc ≠ t.calcCrc)

/-! ## The container (44_container.md) -/

/-- R99: SIG_CHK's cases. k is the first byte that is missing or wrong. -/
def Obligations.SigChkComparesTheSignature : Prop :=
  ∀ s : State,
    (s.params.ibufSize.bytes < s.ibufLen.toNat → exec .sigChk s = .next (failed 0x00000018 .bufferBounds 0 s)) ∧
    (s.ibufLen.toNat ≤ s.params.ibufSize.bytes →
      (∀ k, k < 8 → (∀ i, i < k → i < s.ibufLen.toNat ∧ s.ibufByte i = sigByte i) →
        (s.ibufLen.toNat ≤ k ∨ s.ibufByte k ≠ sigByte k) →
        exec .sigChk s =
          .next (failed 0x00000018 .badSignature (BitVec.ofNat 32 k) { s with cursor := 0, chunkCount := 0 })) ∧
      ((∀ i, i < 8 → i < s.ibufLen.toNat ∧ s.ibufByte i = sigByte i) →
        exec .sigChk s = .next (succeeded 0x00000018 { s with cursor := 8, chunkCount := 0 }))) ∧
    (List.range 8).map sigByte = [0x89, 0x50, 0x4E, 0x47, 0x0D, 0x0A, 0x1A, 0x0A]

/-- R100: within OBUF, SIG_WR writes the eight bytes of SIG at OPTR, leaves every other byte and advances OPTR by 8;
otherwise it raises BufferBounds(0) and writes nothing. -/
def Obligations.SigWrEmitsTheSignature : Prop :=
  (∀ s : State, s.optr.toNat + 8 ≤ s.params.obufSize.bytes →
    ∃ t, exec .sigWr s = .next t ∧
      t = succeeded 0x00000019 { s with obuf := t.obuf, optr := BitVec.ofNat 32 (s.optr.toNat + 8) } ∧
      t.optr.toNat = s.optr.toNat + 8 ∧
      (List.range 8).map (fun i => t.obufByte (s.optr.toNat + i)) =
        [0x89, 0x50, 0x4E, 0x47, 0x0D, 0x0A, 0x1A, 0x0A] ∧
      ∀ x, x < s.optr.toNat ∨ s.optr.toNat + 8 ≤ x → t.obufByte x = s.obufByte x) ∧
  ∀ s : State, s.params.obufSize.bytes < s.optr.toNat + 8 → exec .sigWr s = .next (failed 0x00000019 .bufferBounds 0 s)

/-- R101: CHK_NEXT's cases in their order: bounds, end of input, framing, tag, CRC, success. LengthMismatch does not
arise. The seven registers are those of the slice that the declared length frames. -/
def Obligations.ChkNextParsesTheChunkAtTheCursor : Prop :=
  ∀ s : State,
    let e := s.ibufLen.toNat
    let p := s.cursor.toNat
    let l := (be32 (memRead4 s p)).toNat
    let u := writeParse p (12 + l) s
    exec .chkNext s = .next
      (if s.params.ibufSize.bytes < e ∨ e < p then failed 0x00000021 .bufferBounds 0 s
      else if p = e then ended 0x00000021 (Status.success true) 0 s
      else if e - p < 12 ∨ e - p < 12 + l then failed 0x00000021 .truncated (BitVec.ofNat 32 (e - p)) s
      else
        match firstBadByte (memRead4 s (p + 4)) with
        | some b => failed 0x00000021 .invalidByte (b.setWidth 32) u
        | none =>
          if u.chunkCrc ≠ u.calcCrc then failed 0x00000021 .crcMismatch u.calcCrc u
          else succeeded 0x00000021 { u with cursor := BitVec.ofNat 32 (p + 12 + l), chunkCount := u.chunkCount + 1 })

/-- R102: PNG_PARSE. The signature as SIG_CHK; then the good chunks from offset 8 are walked, as many as there are,
and the walk ends at the end of input with EOI, or at the first bad chunk with its error, CURSOR at its start, the
count 0 and the parse registers as the rule says. Every container has such an end, after at most (E - 8) / 12 chunks. That
CHUNK_COUNT is 0, and CURSOR kept, on BufferBounds is the model's choice: the rule's prose says that CHUNK_COUNT is 0 on
error, its pseudocode raises before any write (log entry 17). -/
def Obligations.PngParseWalksTheContainer : Prop :=
  ∀ s : State,
    let e := s.ibufLen.toNat
    (s.params.ibufSize.bytes < e → exec .pngParse s = .next (failed 0x00000023 .bufferBounds 0 { s with chunkCount := 0 })) ∧
    (e ≤ s.params.ibufSize.bytes →
      (∀ k, k < 8 → (∀ i, i < k → i < e ∧ s.ibufByte i = sigByte i) → (e ≤ k ∨ s.ibufByte k ≠ sigByte k) →
        exec .pngParse s =
          .next (failed 0x00000023 .badSignature (BitVec.ofNat 32 k) { s with cursor := 0, chunkCount := 0 })) ∧
      ((∀ i, i < 8 → i < e ∧ s.ibufByte i = sigByte i) →
        (∃ n q, goodChunks s e 8 n q ∧ (q = e ∨ ¬ goodChunk s e q)) ∧
        ∀ n q, goodChunks s e 8 n q →
          let u := parsedChunks s 8 n
          let l := declaredLength s q
          let w := writeParse q (12 + l) u
          8 + 12 * n ≤ q ∧ q ≤ e ∧
          (q = e → exec .pngParse s = .next (ended 0x00000023 (Status.success true) 0
            { u with cursor := s.ibufLen, chunkCount := BitVec.ofNat 32 n })) ∧
          (q < e → ¬ framed s e q → exec .pngParse s = .next (failed 0x00000023 .truncated (BitVec.ofNat 32 (e - q))
            { u with cursor := BitVec.ofNat 32 q, chunkCount := 0 })) ∧
          (framed s e q →
            (∀ b, firstBadByte (memRead4 s (q + 4)) = some b →
              exec .pngParse s = .next (failed 0x00000023 .invalidByte (b.setWidth 32)
                { w with cursor := BitVec.ofNat 32 q, chunkCount := 0 })) ∧
            (firstBadByte (memRead4 s (q + 4)) = none → ¬ crcMatches s q →
              exec .pngParse s = .next (failed 0x00000023 .crcMismatch w.calcCrc
                { w with cursor := BitVec.ofNat 32 q, chunkCount := 0 })))))

/-- R104: a host walk, SIG_CHK and then CHK_NEXT until EOI or ERR, ends after finitely many commands, and PNG_PARSE ends
in the same state but for CMD and, on an error, CHUNK_COUNT, which PNG_PARSE sets to 0 and the walk leaves at the number of
good chunks (on BufferBounds SIG_CHK writes nothing, R99). The spec marks R104 as derived from R99, R101 and R102. That
PNG_PARSE's CHUNK_COUNT is 0 on BufferBounds too is the model's choice (log entry 17). -/
def Obligations.HostWalkEndsWherePngParseEnds : Prop :=
  ∀ s : State, ∃ t n, hostWalk (s.ibufLen.toNat + 1) s = some (t, n) ∧
    (s.ibufLen.toNat ≤ s.params.ibufSize.bytes → t.chunkCount = BitVec.ofNat 32 n) ∧
    exec .pngParse s = .next { t with
      cmd := 0x00000023
      chunkCount := if t.status.err = true then 0 else t.chunkCount }

/-- The container round trip (R103): a signature and N successful CHK_EMITs from OBUF[0], copied to IBUF[0..) with
IBUF_LEN = OPTR, pass PNG_PARSE with CHUNK_COUNT = N and CURSOR = IBUF_LEN; and a CHK_NEXT at the start of the k-th chunk
accepts it with the tag, length, data and CRC it was emitted with. The host may give IBUF any content before each
emission. The spec marks R103 as derived; its last item is ReEmittedContainerHasTheSameBytes. -/
def Obligations.BuiltContainerParsesBack : Prop :=
  ∀ (s t₀ t u : State) (es : List Emission),
    exec .sigWr { s with optr := 0 } = .next t₀ → t₀.status.err = false → emitAll es t₀ = some t →
    (∀ x, x < t.optr.toNat → u.ibufByte x = t.obufByte x) → u.ibufLen = t.optr →
    t.optr.toNat ≤ u.params.ibufSize.bytes →
    (∃ v, exec .pngParse u = .next v ∧ v.status = Status.success true ∧ v.errInfo = 0 ∧
      v.chunkCount = BitVec.ofNat 32 es.length ∧ v.cursor = u.ibufLen) ∧
    ∀ (pre post : List Emission) (x : Emission), es = pre ++ x :: post →
      ∃ v, exec .chkNext { u with cursor := BitVec.ofNat 32 (chunkStart pre) } = .next v ∧
        v.status = Status.success false ∧ v.cursor.toNat = chunkStart pre + 12 + x.len.toNat ∧
        v.chunkType = be32 x.tag ∧ v.chunkLen = x.len ∧ v.dataLen = x.len ∧
        v.chunkCrc = crc32 (x.tag.toList ++ x.data s) ∧ v.calcCrc = v.chunkCrc ∧
        memRead v v.dataOff.toNat v.dataLen.toNat = x.data s

/-- The last item of R103: a container built in OBUF from offset 0 and copied to IBUF, whose chunks are emitted again from
there in their order after a signature at OBUF[0], gives the same bytes. -/
def Obligations.ReEmittedContainerHasTheSameBytes : Prop :=
  ∀ (s t₀ t u : State) (es : List Emission),
    exec .sigWr { s with optr := 0 } = .next t₀ → t₀.status.err = false → emitAll es t₀ = some t →
    (∀ x, x < t.optr.toNat → u.ibufByte x = t.obufByte x) →
    t.optr.toNat ≤ u.params.ibufSize.bytes → t.optr.toNat ≤ u.params.obufSize.bytes →
    ∃ r₀ r, exec .sigWr { u with optr := 0 } = .next r₀ ∧ r₀.status.err = false ∧
      emitAll (reEmissions u.ibuf 8 es) r₀ = some r ∧ r.optr = t.optr ∧
      ∀ x, x < t.optr.toNat → r.obufByte x = t.obufByte x

/-- The walk commands read only the input IBUF[0 .. IBUF_LEN) (R27, R98): with other bytes from IBUF_LEN on, SIG_CHK,
CHK_NEXT and PNG_PARSE give the same registers. -/
def Obligations.WalkReadsOnlyTheInput : Prop :=
  ∀ (i : Instr) (s t : State) (m : Memory), i ∈ ([.sigChk, .chkNext, .pngParse] : List Instr) →
    (∀ a, a < s.ibufLen.toNat → ({ s with ibuf := m } : State).ibufByte a = s.ibufByte a) →
    exec i s = .next t → exec i { s with ibuf := m } = .next { t with ibuf := m }

/-! ## Host accesses (10_state.md, 20_memory.md) -/

/-- A register read returns the register's current value and changes nothing (R17, R18, R56): every register at its
offset of R17. That the value goes to the model's field lastRead is the model's own (log entry 6). -/
def Obligations.RegisterReadsReturnTheRegister : Prop :=
  (∀ (s : State) (r : Reg) (rest : List HostAction), s.status.busy = false →
    step { s with pending := rd r :: rest } = .next { s with pending := rest, lastRead := some (.word (s.reg r)) }) ∧
  ([.cmd, .status, .ctrl, .src, .cnt, .val, .ibufLen, .cursor, .optr, .crcState, .crcOut, .result, .chunkLen,
    .chunkType, .chunkCrc, .calcCrc, .dataOff, .dataLen, .chunkCount, .errInfo, .typeFlags] : List Reg).map Reg.offset =
    (List.range 21).map (fun k => BitVec.ofNat 8 (4 * k)) ∧
  ∀ s : State, s.reg .crcOut = s.crcState ^^^ 0xFFFFFFFF

/-- R19: an aligned 32-bit read at an offset from 0x54 to 0xFC returns 0, and a write there has no effect. -/
def Obligations.UnmappedOffsetsReadZero : Prop :=
  ∀ (s : State) (off : BitVec 8) (v : Word) (rest : List HostAction), s.status.busy = false → 0x54 ≤ off.toNat →
    off.toNat % 4 = 0 →
    step { s with pending := .readReg .word off :: rest } =
      .next { s with pending := rest, lastRead := some (.word 0x00000000) } ∧
    step { s with pending := .writeReg .word off v :: rest } = .next { s with pending := rest }

/-- A host write to a register marked R has no effect (R18). -/
def Obligations.ReadOnlyRegistersIgnoreWrites : Prop :=
  ∀ (s : State) (r : Reg) (v : Word) (rest : List HostAction), s.status.busy = false →
    r ∉ ([.cmd, .status, .ctrl, .src, .cnt, .val, .ibufLen, .cursor, .optr] : List Reg) →
    step { s with pending := wr r v :: rest } = .next { s with pending := rest }

/-- From every state with BUSY = 0 (the others are AccessWhileBusyIsRefused's) a sub-word or misaligned register access
is refused (R18). That a 64-bit access is refused too, and that the width is looked at before the alignment, is the model's
own (log entry 9). -/
def Obligations.NarrowOrMisalignedAccessIsRefused : Prop :=
  ∀ (s : State) (width : AccessWidth) (off : BitVec 8) (v : Word) (rest : List HostAction), s.status.busy = false →
    (width ≠ .word →
      step { s with pending := .readReg width off :: rest } = .refused .registerAccessNotWord ∧
      step { s with pending := .writeReg width off v :: rest } = .refused .registerAccessNotWord) ∧
    (width = .word → off.toNat % 4 ≠ 0 →
      step { s with pending := .readReg width off :: rest } = .refused .registerAccessMisaligned ∧
      step { s with pending := .writeReg width off v :: rest } = .refused .registerAccessMisaligned)

/-- A host write of STATUS with bit 1 = 1 sets DONE to 0 and has no other effect; with bit 1 = 0 it has none (R21). -/
def Obligations.StatusWriteClearsOnlyDone : Prop :=
  ∀ (s : State) (w : Word) (rest : List HostAction), s.status.busy = false →
    step { s with pending := wr .status w :: rest } =
      .next { s with
        pending := rest
        status := { s.status with done := s.status.done && !w.getLsbD 1 } }

/-- A host write of CTRL without bit 1 sets IRQ_EN to bit 0 and has no other effect; the line IRQ is then DONE AND that
bit (R22, R45). -/
def Obligations.CtrlWriteSetsTheInterruptEnable : Prop :=
  ∀ (s : State) (w : Word) (rest : List HostAction), s.status.busy = false → w.getLsbD 1 = false →
    ∃ t, step { s with pending := wr .ctrl w :: rest } = .next t ∧
      t = { s with pending := rest, ctrl := { irqEn := w.getLsbD 0 } } ∧
      t.reg .ctrl = w &&& 1 ∧ irq t = (s.status.done && w.getLsbD 0)

/-- R23: the six general registers hold what the host writes, no one aliases another, and the host reads it back. -/
def Obligations.GeneralRegistersHoldHostWrites : Prop :=
  ∀ (s : State) (r : Reg) (v : Word) (rest : List HostAction), s.status.busy = false →
    r ∈ ([.src, .cnt, .val, .ibufLen, .cursor, .optr] : List Reg) →
    ∃ t, step { s with pending := wr r v :: rest } = .next t ∧ t.pending = rest ∧
      (∀ r', t.reg r' = if r' = r then v else s.reg r') ∧
      (∀ b a, t.bufferByte b a = s.bufferByte b a) ∧
      step { t with pending := rd r :: rest } = .next { t with pending := rest, lastRead := some (.word v) }

/-- A host byte write to a buffer is seen by every later read until the next write there, and changes no other byte of
either buffer and no register (R44, R48, R59). -/
def Obligations.BufferByteHoldsHostWrites : Prop :=
  ∀ (s : State) (b : Buffer) (a : Word) (v : Byte) (rest : List HostAction), s.status.busy = false →
    a.toNat < bufferSize b s →
    ∃ t, step { s with pending := .writeByte b a v :: rest } = .next t ∧ t.pending = rest ∧
      (∀ b' x, t.bufferByte b' x = if b' = b ∧ x = a.toNat then v else s.bufferByte b' x) ∧
      (∀ r, t.reg r = s.reg r) ∧
      ∀ (a' : Word), a'.toNat < bufferSize b s →
        step { t with pending := .readByte b a' :: rest } =
          .next { t with pending := rest, lastRead := some (.byte (if a' = a then v else s.bufferByte b a'.toNat)) }

/-- An action goes on exactly when it has a meaning: an aligned 32-bit register access, a byte that exists, or a
power-on (R18, R44, R120). That an absent byte faults is the model's reading (log entry 7). -/
def Obligations.ExactlyTheMeaningfulActionsComplete : Prop :=
  ∀ (s : State) (act : HostAction) (rest : List HostAction), s.status.busy = false →
    (act.meaningful s ↔ ∃ t, step { s with pending := act :: rest } = .next t)

/-- In a state with BUSY = 1, which no step reaches, every host access but a STATUS read is refused, and a STATUS read
returns STATUS (R125, U9; log entry 8). -/
def Obligations.AccessWhileBusyIsRefused : Prop :=
  ∀ (s : State) (rest : List HostAction), s.status.busy = true →
    (∀ act, act ≠ .powerOnReset → (∀ width, act ≠ .readReg width 0x04) →
      step { s with pending := act :: rest } = .refused .accessWhileBusy) ∧
    step { s with pending := rd .status :: rest } =
      .next { s with pending := rest, lastRead := some (.word (s.reg .status)) }

/-- Every step that goes on keeps the buffer sizes (R5). That it takes exactly the first action off the list pending (log
entry 4), and that the counter powerOns moves at a power-on only, by one (log entry 2), is the model's own form of R15's
steps and of R121's fresh draws. -/
def Obligations.StepsKeepTheParameters : Prop :=
  ∀ s t : State, step s = .next t →
    t.params = s.params ∧ t.pending = s.pending.tail ∧
    t.powerOns = if s.pending.head? = some .powerOnReset then s.powerOns + 1 else s.powerOns

/-- The host sequences of R72: `crc32 a, n` returns crc32 of the range, and each other pseudo-instruction is its command
with the operand registers set. -/
def Obligations.PseudoInstructionsExpandToTheirCommands : Prop :=
  ∀ (s : State) (rest : List HostAction), s.status.busy = false →
    (∀ a n : Word, a.toNat + n.toNat ≤ s.params.ibufSize.bytes →
      ∃ t, core.run 5 { s with pending := pseudoCrc32 a n ++ rest } = .next t ∧
        t.lastRead = some (.word (crc32 (memRead s a.toNat n.toNat))) ∧ t.pending = rest) ∧
    (∀ v : Word, core.run 2 { s with pending := pseudoEmitU32 v ++ rest } =
      exec .stBe32 { s with val := v, pending := rest }) ∧
    (∀ (tag : Quad) (a n : Word), core.run 4 { s with pending := pseudoEmitChunk tag a n ++ rest } =
      exec .chkEmit { s with val := be32 tag, src := a, cnt := n, pending := rest }) ∧
    core.run 2 { s with pending := pseudoBeginPng ++ rest } = exec .sigWr { s with optr := 0, pending := rest } ∧
    (∀ n : Word, core.run 2 { s with pending := pseudoParsePng n ++ rest } =
      exec .pngParse { s with ibufLen := n, pending := rest }) ∧
    ∀ tag : Quad, core.run 2 { s with pending := pseudoCheckTag tag ++ rest } =
      exec .typeChk { s with val := be32 tag, pending := rest }
end

