-- ==== Sys2Proof/Laws/Memory.lean ====
section
/-! SUPPORT. The laws of a buffer's list: a read after a write, every other offset, and the canonical form kept. -/

namespace Sys2Proof.Machine

theorem Memory.written_store (m : Memory) (a : Nat) (v : Byte) (x : Nat) :
    Memory.written (Memory.store m a v) x = if x = a then some v else Memory.written m x := by
  induction m with
  | nil => simp [Memory.store, Memory.written]
  | cons c m ih =>
    obtain ⟨k, w⟩ := c
    simp only [Memory.store]
    split
    · simp [Memory.written]
    · split
      · subst_vars
        simp only [Memory.written]
        split <;> rfl
      · simp only [Memory.written, ih]
        split <;> split <;> first | rfl | omega

theorem Memory.mem_store {m : Memory} {a : Nat} {v : Byte} {c : Host.Cell} (h : c ∈ Memory.store m a v) :
    c = (a, v) ∨ c ∈ m := by
  induction m with
  | nil => exact .inl (by simpa [Memory.store] using h)
  | cons d m ih =>
    obtain ⟨k, w⟩ := d
    simp only [Memory.store] at h
    split at h
    · rcases List.mem_cons.1 h with h | h
      · exact .inl h
      · exact .inr h
    · split at h
      · rcases List.mem_cons.1 h with h | h
        · exact .inl h
        · exact .inr (List.mem_cons_of_mem _ h)
      · rcases List.mem_cons.1 h with h | h
        · exact .inr (h ▸ List.mem_cons_self)
        · exact (ih h).imp id (List.mem_cons_of_mem _)

theorem Memory.wf_store {m : Memory} (h : Memory.wf m) (a : Nat) (v : Byte) : Memory.wf (Memory.store m a v) := by
  induction m with
  | nil => simp [Memory.store]
  | cons d m ih =>
    obtain ⟨k, w⟩ := d
    obtain ⟨hk, hm⟩ := List.pairwise_cons.1 h
    simp only [Memory.store]
    split
    · rename_i hlt
      refine List.pairwise_cons.2 ⟨fun c hc => ?_, h⟩
      rcases List.mem_cons.1 hc with rfl | hc
      · exact hlt
      · exact Nat.lt_trans hlt (hk c hc)
    · split
      · subst_vars
        exact List.pairwise_cons.2 ⟨hk, hm⟩
      · refine List.pairwise_cons.2 ⟨fun c hc => ?_, ih hm⟩
        rcases Memory.mem_store hc with rfl | hc
        · show k < a
          omega
        · exact hk c hc

theorem Memory.wf_storeAll {m : Memory} (h : Memory.wf m) (a : Nat) (bs : List Byte) :
    Memory.wf (Memory.storeAll m a bs) := by
  induction bs generalizing m a with
  | nil => exact h
  | cons v vs ih => exact ih (Memory.wf_store h a v) (a + 1)

theorem Memory.within_store {m : Memory} {size : Nat} (h : Memory.within m size) {a : Nat} (ha : a < size) (v : Byte) :
    Memory.within (Memory.store m a v) size :=
  ⟨Memory.wf_store h.1 a v, fun _ hc => (Memory.mem_store hc).elim (· ▸ ha) (h.2 _)⟩

theorem Memory.within_storeAll {m : Memory} {size : Nat} (h : Memory.within m size) (a : Nat) (bs : List Byte)
    (ha : a + bs.length ≤ size) : Memory.within (Memory.storeAll m a bs) size := by
  induction bs generalizing m a with
  | nil => exact h
  | cons v vs ih =>
    simp only [List.length_cons] at ha
    exact ih (Memory.within_store h (by omega) v) (a + 1) (by omega)

/-- What a sequence write leaves at every offset. -/
theorem Memory.written_storeAll (m : Memory) (a : Nat) (bs : List Byte) (x : Nat) :
    Memory.written (Memory.storeAll m a bs) x =
      if h : a ≤ x ∧ x < a + bs.length then some (bs[x - a]'(by omega)) else Memory.written m x := by
  induction bs generalizing m a with
  | nil =>
    simp only [Memory.storeAll, List.length_nil]
    split
    · omega
    · rfl
  | cons v vs ih =>
    simp only [Memory.storeAll, ih, Memory.written_store, List.length_cons]
    by_cases h1 : a + 1 ≤ x ∧ x < a + 1 + vs.length
    · rw [dif_pos h1, dif_pos (by omega)]
      have : x - a = (x - (a + 1)) + 1 := by omega
      simp [this]
    · rw [dif_neg h1]
      by_cases h2 : x = a
      · subst h2
        simp
      · rw [if_neg h2, dif_neg (by omega)]

theorem Memory.written_storeAll_of_outside (m : Memory) {a : Nat} {bs : List Byte} {x : Nat}
    (h : x < a ∨ a + bs.length ≤ x) : Memory.written (Memory.storeAll m a bs) x = Memory.written m x := by
  rw [Memory.written_storeAll, dif_neg (by omega)]

theorem Memory.written_storeAll_of_inside (m : Memory) (a : Nat) (bs : List Byte) (i : Nat) (h : i < bs.length) :
    Memory.written (Memory.storeAll m a bs) (a + i) = some bs[i] := by
  rw [Memory.written_storeAll, dif_pos (by omega)]
  simp

/-- A byte outside the range that MemWrite wrote reads as before (R9). -/
theorem memWrite_obufByte_of_outside (s : State) {a : Nat} {bs : List Byte} {x : Nat}
    (h : x < a ∨ a + bs.length ≤ x) : (memWrite s a bs).obufByte x = s.obufByte x := by
  simp only [State.obufByte, memWrite, Memory.read, Memory.written_storeAll_of_outside _ h]

/-- MemWrite puts byte i of the sequence at offset a + i (R9). -/
theorem memWrite_obufByte_of_inside (s : State) (a : Nat) (bs : List Byte) (i : Nat) (h : i < bs.length) :
    (memWrite s a bs).obufByte (a + i) = bs[i] := by
  simp only [State.obufByte, memWrite, Memory.read, Memory.written_storeAll_of_inside _ _ _ _ h, Option.getD_some]

end Sys2Proof.Machine
end

