-- ==== Sys2Proof/Laws/State.lean ====
section
/-! SUPPORT. One lemma per field for each named update of the state (issue, complete, raiseError, memWrite, writeParse),
and for the buffer reads and bounds through them, so that no proof unfolds an update. -/

namespace Sys2Proof.Machine

section
variable (w : Word) (s : State)

@[simp] theorem issue_params : (issue w s).params = s.params := rfl
@[simp] theorem issue_cmd : (issue w s).cmd = w := rfl
@[simp] theorem issue_status : (issue w s).status = { busy := true, done := false, err := false, eoi := false, errcode := 0 } := rfl
@[simp] theorem issue_ctrl : (issue w s).ctrl = s.ctrl := rfl
@[simp] theorem issue_src : (issue w s).src = s.src := rfl
@[simp] theorem issue_cnt : (issue w s).cnt = s.cnt := rfl
@[simp] theorem issue_val : (issue w s).val = s.val := rfl
@[simp] theorem issue_ibufLen : (issue w s).ibufLen = s.ibufLen := rfl
@[simp] theorem issue_cursor : (issue w s).cursor = s.cursor := rfl
@[simp] theorem issue_optr : (issue w s).optr = s.optr := rfl
@[simp] theorem issue_crcState : (issue w s).crcState = s.crcState := rfl
@[simp] theorem issue_result : (issue w s).result = s.result := rfl
@[simp] theorem issue_chunkLen : (issue w s).chunkLen = s.chunkLen := rfl
@[simp] theorem issue_chunkType : (issue w s).chunkType = s.chunkType := rfl
@[simp] theorem issue_chunkCrc : (issue w s).chunkCrc = s.chunkCrc := rfl
@[simp] theorem issue_calcCrc : (issue w s).calcCrc = s.calcCrc := rfl
@[simp] theorem issue_dataOff : (issue w s).dataOff = s.dataOff := rfl
@[simp] theorem issue_dataLen : (issue w s).dataLen = s.dataLen := rfl
@[simp] theorem issue_chunkCount : (issue w s).chunkCount = s.chunkCount := rfl
@[simp] theorem issue_errInfo : (issue w s).errInfo = 0 := rfl
@[simp] theorem issue_typeFlags : (issue w s).typeFlags = s.typeFlags := rfl
@[simp] theorem issue_ibuf : (issue w s).ibuf = s.ibuf := rfl
@[simp] theorem issue_obuf : (issue w s).obuf = s.obuf := rfl
@[simp] theorem issue_powerOns : (issue w s).powerOns = s.powerOns := rfl
@[simp] theorem issue_pending : (issue w s).pending = s.pending := rfl
@[simp] theorem issue_lastRead : (issue w s).lastRead = s.lastRead := rfl
@[simp] theorem issue_ibufByte (x : Nat) : (issue w s).ibufByte x = s.ibufByte x := rfl
@[simp] theorem issue_obufByte (x : Nat) : (issue w s).obufByte x = s.obufByte x := rfl
@[simp] theorem issue_memRead (x m : Nat) : memRead (issue w s) x m = memRead s x m := rfl
@[simp] theorem issue_memRead4 (x : Nat) : memRead4 (issue w s) x = memRead4 s x := rfl
@[simp] theorem issue_inI (x m : Nat) : inI (issue w s) x m ↔ inI s x m := Iff.rfl
@[simp] theorem issue_inO (x m : Nat) : inO (issue w s) x m ↔ inO s x m := Iff.rfl

end

section
variable (s : State)

@[simp] theorem complete_params : (complete s).params = s.params := rfl
@[simp] theorem complete_cmd : (complete s).cmd = s.cmd := rfl
@[simp] theorem complete_status : (complete s).status = { s.status with busy := false, done := true } := rfl
@[simp] theorem complete_ctrl : (complete s).ctrl = s.ctrl := rfl
@[simp] theorem complete_src : (complete s).src = s.src := rfl
@[simp] theorem complete_cnt : (complete s).cnt = s.cnt := rfl
@[simp] theorem complete_val : (complete s).val = s.val := rfl
@[simp] theorem complete_ibufLen : (complete s).ibufLen = s.ibufLen := rfl
@[simp] theorem complete_cursor : (complete s).cursor = s.cursor := rfl
@[simp] theorem complete_optr : (complete s).optr = s.optr := rfl
@[simp] theorem complete_crcState : (complete s).crcState = s.crcState := rfl
@[simp] theorem complete_result : (complete s).result = s.result := rfl
@[simp] theorem complete_chunkLen : (complete s).chunkLen = s.chunkLen := rfl
@[simp] theorem complete_chunkType : (complete s).chunkType = s.chunkType := rfl
@[simp] theorem complete_chunkCrc : (complete s).chunkCrc = s.chunkCrc := rfl
@[simp] theorem complete_calcCrc : (complete s).calcCrc = s.calcCrc := rfl
@[simp] theorem complete_dataOff : (complete s).dataOff = s.dataOff := rfl
@[simp] theorem complete_dataLen : (complete s).dataLen = s.dataLen := rfl
@[simp] theorem complete_chunkCount : (complete s).chunkCount = s.chunkCount := rfl
@[simp] theorem complete_errInfo : (complete s).errInfo = s.errInfo := rfl
@[simp] theorem complete_typeFlags : (complete s).typeFlags = s.typeFlags := rfl
@[simp] theorem complete_ibuf : (complete s).ibuf = s.ibuf := rfl
@[simp] theorem complete_obuf : (complete s).obuf = s.obuf := rfl
@[simp] theorem complete_powerOns : (complete s).powerOns = s.powerOns := rfl
@[simp] theorem complete_pending : (complete s).pending = s.pending := rfl
@[simp] theorem complete_lastRead : (complete s).lastRead = s.lastRead := rfl
@[simp] theorem complete_ibufByte (x : Nat) : (complete s).ibufByte x = s.ibufByte x := rfl
@[simp] theorem complete_obufByte (x : Nat) : (complete s).obufByte x = s.obufByte x := rfl
@[simp] theorem complete_memRead (x m : Nat) : memRead (complete s) x m = memRead s x m := rfl
@[simp] theorem complete_memRead4 (x : Nat) : memRead4 (complete s) x = memRead4 s x := rfl
@[simp] theorem complete_inI (x m : Nat) : inI (complete s) x m ↔ inI s x m := Iff.rfl
@[simp] theorem complete_inO (x m : Nat) : inO (complete s) x m ↔ inO s x m := Iff.rfl

end

section
variable (k : ErrorKind) (v : Word) (s : State)

@[simp] theorem raiseError_params : (raiseError k v s).params = s.params := rfl
@[simp] theorem raiseError_cmd : (raiseError k v s).cmd = s.cmd := rfl
@[simp] theorem raiseError_status : (raiseError k v s).status = { busy := false, done := true, err := true, eoi := s.status.eoi, errcode := k.code } := rfl
@[simp] theorem raiseError_ctrl : (raiseError k v s).ctrl = s.ctrl := rfl
@[simp] theorem raiseError_src : (raiseError k v s).src = s.src := rfl
@[simp] theorem raiseError_cnt : (raiseError k v s).cnt = s.cnt := rfl
@[simp] theorem raiseError_val : (raiseError k v s).val = s.val := rfl
@[simp] theorem raiseError_ibufLen : (raiseError k v s).ibufLen = s.ibufLen := rfl
@[simp] theorem raiseError_cursor : (raiseError k v s).cursor = s.cursor := rfl
@[simp] theorem raiseError_optr : (raiseError k v s).optr = s.optr := rfl
@[simp] theorem raiseError_crcState : (raiseError k v s).crcState = s.crcState := rfl
@[simp] theorem raiseError_result : (raiseError k v s).result = s.result := rfl
@[simp] theorem raiseError_chunkLen : (raiseError k v s).chunkLen = s.chunkLen := rfl
@[simp] theorem raiseError_chunkType : (raiseError k v s).chunkType = s.chunkType := rfl
@[simp] theorem raiseError_chunkCrc : (raiseError k v s).chunkCrc = s.chunkCrc := rfl
@[simp] theorem raiseError_calcCrc : (raiseError k v s).calcCrc = s.calcCrc := rfl
@[simp] theorem raiseError_dataOff : (raiseError k v s).dataOff = s.dataOff := rfl
@[simp] theorem raiseError_dataLen : (raiseError k v s).dataLen = s.dataLen := rfl
@[simp] theorem raiseError_chunkCount : (raiseError k v s).chunkCount = s.chunkCount := rfl
@[simp] theorem raiseError_errInfo : (raiseError k v s).errInfo = v := rfl
@[simp] theorem raiseError_typeFlags : (raiseError k v s).typeFlags = s.typeFlags := rfl
@[simp] theorem raiseError_ibuf : (raiseError k v s).ibuf = s.ibuf := rfl
@[simp] theorem raiseError_obuf : (raiseError k v s).obuf = s.obuf := rfl
@[simp] theorem raiseError_powerOns : (raiseError k v s).powerOns = s.powerOns := rfl
@[simp] theorem raiseError_pending : (raiseError k v s).pending = s.pending := rfl
@[simp] theorem raiseError_lastRead : (raiseError k v s).lastRead = s.lastRead := rfl
@[simp] theorem raiseError_ibufByte (x : Nat) : (raiseError k v s).ibufByte x = s.ibufByte x := rfl
@[simp] theorem raiseError_obufByte (x : Nat) : (raiseError k v s).obufByte x = s.obufByte x := rfl
@[simp] theorem raiseError_memRead (x m : Nat) : memRead (raiseError k v s) x m = memRead s x m := rfl
@[simp] theorem raiseError_memRead4 (x : Nat) : memRead4 (raiseError k v s) x = memRead4 s x := rfl
@[simp] theorem raiseError_inI (x m : Nat) : inI (raiseError k v s) x m ↔ inI s x m := Iff.rfl
@[simp] theorem raiseError_inO (x m : Nat) : inO (raiseError k v s) x m ↔ inO s x m := Iff.rfl

end

section
variable (s : State) (a : Nat) (bs : List Byte)

@[simp] theorem memWrite_params : (memWrite s a bs).params = s.params := rfl
@[simp] theorem memWrite_cmd : (memWrite s a bs).cmd = s.cmd := rfl
@[simp] theorem memWrite_status : (memWrite s a bs).status = s.status := rfl
@[simp] theorem memWrite_ctrl : (memWrite s a bs).ctrl = s.ctrl := rfl
@[simp] theorem memWrite_src : (memWrite s a bs).src = s.src := rfl
@[simp] theorem memWrite_cnt : (memWrite s a bs).cnt = s.cnt := rfl
@[simp] theorem memWrite_val : (memWrite s a bs).val = s.val := rfl
@[simp] theorem memWrite_ibufLen : (memWrite s a bs).ibufLen = s.ibufLen := rfl
@[simp] theorem memWrite_cursor : (memWrite s a bs).cursor = s.cursor := rfl
@[simp] theorem memWrite_optr : (memWrite s a bs).optr = s.optr := rfl
@[simp] theorem memWrite_crcState : (memWrite s a bs).crcState = s.crcState := rfl
@[simp] theorem memWrite_result : (memWrite s a bs).result = s.result := rfl
@[simp] theorem memWrite_chunkLen : (memWrite s a bs).chunkLen = s.chunkLen := rfl
@[simp] theorem memWrite_chunkType : (memWrite s a bs).chunkType = s.chunkType := rfl
@[simp] theorem memWrite_chunkCrc : (memWrite s a bs).chunkCrc = s.chunkCrc := rfl
@[simp] theorem memWrite_calcCrc : (memWrite s a bs).calcCrc = s.calcCrc := rfl
@[simp] theorem memWrite_dataOff : (memWrite s a bs).dataOff = s.dataOff := rfl
@[simp] theorem memWrite_dataLen : (memWrite s a bs).dataLen = s.dataLen := rfl
@[simp] theorem memWrite_chunkCount : (memWrite s a bs).chunkCount = s.chunkCount := rfl
@[simp] theorem memWrite_errInfo : (memWrite s a bs).errInfo = s.errInfo := rfl
@[simp] theorem memWrite_typeFlags : (memWrite s a bs).typeFlags = s.typeFlags := rfl
@[simp] theorem memWrite_ibuf : (memWrite s a bs).ibuf = s.ibuf := rfl
@[simp] theorem memWrite_obuf : (memWrite s a bs).obuf = Memory.storeAll s.obuf a bs := rfl
@[simp] theorem memWrite_powerOns : (memWrite s a bs).powerOns = s.powerOns := rfl
@[simp] theorem memWrite_pending : (memWrite s a bs).pending = s.pending := rfl
@[simp] theorem memWrite_lastRead : (memWrite s a bs).lastRead = s.lastRead := rfl
@[simp] theorem memWrite_ibufByte (x : Nat) : (memWrite s a bs).ibufByte x = s.ibufByte x := rfl
@[simp] theorem memWrite_memRead (x m : Nat) : memRead (memWrite s a bs) x m = memRead s x m := rfl
@[simp] theorem memWrite_memRead4 (x : Nat) : memRead4 (memWrite s a bs) x = memRead4 s x := rfl
@[simp] theorem memWrite_inI (x m : Nat) : inI (memWrite s a bs) x m ↔ inI s x m := Iff.rfl
@[simp] theorem memWrite_inO (x m : Nat) : inO (memWrite s a bs) x m ↔ inO s x m := Iff.rfl

end

section
variable (a n : Nat) (s : State)

@[simp] theorem writeParse_params : (writeParse a n s).params = s.params := rfl
@[simp] theorem writeParse_cmd : (writeParse a n s).cmd = s.cmd := rfl
@[simp] theorem writeParse_status : (writeParse a n s).status = s.status := rfl
@[simp] theorem writeParse_ctrl : (writeParse a n s).ctrl = s.ctrl := rfl
@[simp] theorem writeParse_src : (writeParse a n s).src = s.src := rfl
@[simp] theorem writeParse_cnt : (writeParse a n s).cnt = s.cnt := rfl
@[simp] theorem writeParse_val : (writeParse a n s).val = s.val := rfl
@[simp] theorem writeParse_ibufLen : (writeParse a n s).ibufLen = s.ibufLen := rfl
@[simp] theorem writeParse_cursor : (writeParse a n s).cursor = s.cursor := rfl
@[simp] theorem writeParse_optr : (writeParse a n s).optr = s.optr := rfl
@[simp] theorem writeParse_crcState : (writeParse a n s).crcState = s.crcState := rfl
@[simp] theorem writeParse_result : (writeParse a n s).result = s.result := rfl
@[simp] theorem writeParse_chunkLen : (writeParse a n s).chunkLen = be32 (memRead4 s a) := rfl
@[simp] theorem writeParse_chunkType : (writeParse a n s).chunkType = be32 (memRead4 s (a + 4)) := rfl
@[simp] theorem writeParse_chunkCrc : (writeParse a n s).chunkCrc = be32 (memRead4 s (a + n - 4)) := rfl
@[simp] theorem writeParse_calcCrc : (writeParse a n s).calcCrc = crc32 ((memRead4 s (a + 4)).toList ++ memRead s (a + 8) (n - 12)) := rfl
@[simp] theorem writeParse_dataOff : (writeParse a n s).dataOff = toWord (a + 8) := rfl
@[simp] theorem writeParse_dataLen : (writeParse a n s).dataLen = toWord (n - 12) := rfl
@[simp] theorem writeParse_chunkCount : (writeParse a n s).chunkCount = s.chunkCount := rfl
@[simp] theorem writeParse_errInfo : (writeParse a n s).errInfo = s.errInfo := rfl
@[simp] theorem writeParse_typeFlags : (writeParse a n s).typeFlags = tagFlags (memRead4 s (a + 4)) := rfl
@[simp] theorem writeParse_ibuf : (writeParse a n s).ibuf = s.ibuf := rfl
@[simp] theorem writeParse_obuf : (writeParse a n s).obuf = s.obuf := rfl
@[simp] theorem writeParse_powerOns : (writeParse a n s).powerOns = s.powerOns := rfl
@[simp] theorem writeParse_pending : (writeParse a n s).pending = s.pending := rfl
@[simp] theorem writeParse_lastRead : (writeParse a n s).lastRead = s.lastRead := rfl
@[simp] theorem writeParse_ibufByte (x : Nat) : (writeParse a n s).ibufByte x = s.ibufByte x := rfl
@[simp] theorem writeParse_obufByte (x : Nat) : (writeParse a n s).obufByte x = s.obufByte x := rfl
@[simp] theorem writeParse_memRead (x m : Nat) : memRead (writeParse a n s) x m = memRead s x m := rfl
@[simp] theorem writeParse_memRead4 (x : Nat) : memRead4 (writeParse a n s) x = memRead4 s x := rfl
@[simp] theorem writeParse_inI (x m : Nat) : inI (writeParse a n s) x m ↔ inI s x m := Iff.rfl
@[simp] theorem writeParse_inO (x m : Nat) : inO (writeParse a n s) x m ↔ inO s x m := Iff.rfl

end

end Sys2Proof.Machine
end

