-- ==== Sys2Proof/Laws/Ops.lean ====
section
/-! SUPPORT. One spec lemma per shared operation: byte order, buffer reads, the CRC feed, the tag check, the slice
parser, the signature compare, and the end of a command. -/

namespace Sys2Proof.Machine

/-! ### Byte order (R10) -/

theorem be32_getLsbD (q : Quad) (i : Nat) :
    (be32 q).getLsbD i =
      if i < 8 then q.b3.getLsbD i
      else if i < 16 then q.b2.getLsbD (i - 8)
      else if i < 24 then q.b1.getLsbD (i - 16)
      else q.b0.getLsbD (i - 24) := by
  simp only [be32, BitVec.getLsbD_append]
  by_cases a : i < 8
  · simp [a]
  · by_cases b : i < 16
    · simp [a, b, show i - 8 < 8 by omega]
    · by_cases c : i < 24
      · simp [a, b, c, show ¬ i - 8 < 8 by omega, show i - 8 - 8 = i - 16 by omega, show i - 16 < 8 by omega]
      · simp [a, b, c, show ¬ i - 8 < 8 by omega, show ¬ i - 8 - 8 < 8 by omega, show i - 8 - 8 - 8 = i - 24 by omega]

theorem be32_be32bytes (v : Word) : be32 (be32bytes v) = v := by
  apply BitVec.eq_of_getLsbD_eq
  intro i hi
  rw [be32_getLsbD]
  simp only [be32bytes, BitVec.getLsbD_extractLsb']
  repeat' split
  · simp_all
  · simp [show i - 8 < 8 by omega, show 8 + (i - 8) = i by omega]
  · simp [show i - 16 < 8 by omega, show 16 + (i - 16) = i by omega]
  · simp [show i - 24 < 8 by omega, show 24 + (i - 24) = i by omega]

theorem be32bytes_be32 (q : Quad) : be32bytes (be32 q) = q := by
  obtain ⟨a, b, c, d⟩ := q
  simp only [be32bytes, Quad.mk.injEq]
  refine ⟨?_, ?_, ?_, ?_⟩ <;>
    (apply BitVec.eq_of_getLsbD_eq; intro i hi; rw [BitVec.getLsbD_extractLsb', be32_getLsbD])
  · simp [hi, show ¬ 24 + i < 8 by omega, show ¬ 24 + i < 16 by omega]
  · simp [hi, show ¬ 16 + i < 8 by omega, show 16 + i < 24 by omega]
  · simp [hi, show 8 + i < 16 by omega]
  · simp [hi]

@[simp] theorem Quad.length_toList (q : Quad) : q.toList.length = 4 := rfl

/-- The declared length of a chunk is a u32 (R90). -/
theorem declaredLength_lt (s : State) (p : Nat) : declaredLength s p < 2 ^ 32 := (be32 (memRead4 s p)).isLt

theorem toWord_toNat (w : Word) : toWord w.toNat = w := by simp [toWord]

theorem toNat_toWord {n : Nat} (h : n < 2 ^ 32) : (toWord n).toNat = n := by
  simp only [toWord, BitVec.toNat_ofNat, Nat.mod_eq_of_lt h]

/-- A buffer size is 1 to 2^32 - 1 (R5). -/
theorem bufSize_range (z : BufSize) : 1 ≤ z.bytes ∧ z.bytes < 2 ^ 32 :=
  ⟨Nat.succ_le_succ (Nat.zero_le _), by have := z.lessOne.isLt; simp only [BufSize.bytes]; omega⟩

/-! ### Buffer reads (R9) -/

@[simp] theorem memRead_length (s : State) (a n : Nat) : (memRead s a n).length = n := by simp [memRead]

theorem memRead_getElem (s : State) (a n i : Nat) (h : i < (memRead s a n).length) :
    (memRead s a n)[i] = s.ibufByte (a + i) := by simp [memRead]

/-- Reads agree where the bytes do. -/
theorem memRead_congr {s t : State} {a b n : Nat} (h : ∀ i, i < n → s.ibufByte (a + i) = t.ibufByte (b + i)) :
    memRead s a n = memRead t b n :=
  List.map_congr_left fun i hi => h i (List.mem_range.1 hi)

theorem memRead4_congr {s t : State} {a b : Nat} (h : ∀ i, i < 4 → s.ibufByte (a + i) = t.ibufByte (b + i)) :
    memRead4 s a = memRead4 t b := by
  simp only [memRead4, h 1 (by omega), h 2 (by omega), h 3 (by omega),
    show s.ibufByte a = t.ibufByte b from h 0 (by omega)]

theorem memRead_add (s : State) (a m n : Nat) : memRead s a (m + n) = memRead s a m ++ memRead s (a + m) n := by
  simp [memRead, List.range_add, List.map_append, Nat.add_assoc]

theorem memRead4_toList (s : State) (a : Nat) : (memRead4 s a).toList = memRead s a 4 := rfl

/-- Byte i of be32bytes(v) is v[31-8i : 24-8i] (R10). -/
theorem be32bytes_getElem (v : Word) (i : Fin 4) :
    (be32bytes v).toList[i.val]'(by rw [Quad.length_toList]; exact i.isLt) = v.extractLsb' (24 - 8 * i.val) 8 := by
  match i with
  | 0 => rfl
  | 1 => rfl
  | 2 => rfl
  | 3 => rfl

/-- An output range that exists ends below 2^32, so OPTR holds its end exactly (R5, R29). -/
theorem optr_toNat {o n : Nat} {p : Params} (h : o + n ≤ p.obufSize.bytes) : (toWord (o + n)).toNat = o + n :=
  toNat_toWord (by have := bufSize_range p.obufSize; omega)

/-- An input range that exists ends below 2^32 (R5). -/
theorem ibuf_toNat {n : Nat} {p : Params} (h : n ≤ p.ibufSize.bytes) : (toWord n).toNat = n :=
  toNat_toWord (by have := bufSize_range p.ibufSize; omega)

/-! ### The serialized chunk (R90) -/

@[simp] theorem serializeChunk_length (t : Quad) (d : List Byte) : (serializeChunk t d).length = 12 + d.length := by
  simp [serializeChunk]; omega

/-- Where MemWrite puts the four parts of a serialized chunk (R90, R96). -/
theorem memWrite_serializeChunk (s : State) (o : Nat) (t : Quad) (d : List Byte) :
    let u := memWrite s o (serializeChunk t d)
    (∀ i : Fin 4, u.obufByte (o + i) = (toWord d.length).extractLsb' (24 - 8 * i.val) 8) ∧
    (∀ i : Fin 4, u.obufByte (o + 4 + i) = t.toList[i.val]'(by rw [Quad.length_toList]; exact i.isLt)) ∧
    (∀ i (h : i < d.length), u.obufByte (o + 8 + i) = d[i]) ∧
    (∀ i : Fin 4, u.obufByte (o + 8 + d.length + i) =
      (crc32 (t.toList ++ d)).extractLsb' (24 - 8 * i.val) 8) := by
  intro u
  have key : ∀ i (h : i < (serializeChunk t d).length), u.obufByte (o + i) = (serializeChunk t d)[i] :=
    memWrite_obufByte_of_inside s o _
  have hl := serializeChunk_length t d
  refine ⟨fun i => ?_, fun i => ?_, fun i h => ?_, fun i => ?_⟩
  · rw [← be32bytes_getElem, key i (by omega)]
    simp only [serializeChunk, List.append_assoc]
    exact List.getElem_append_left (by simp)
  · rw [Nat.add_assoc, key (4 + i) (by omega)]
    simp only [serializeChunk, List.append_assoc]
    rw [List.getElem_append_right (by simp), List.getElem_append_left (by simp)]
    simp
  · rw [Nat.add_assoc, key (8 + i) (by omega)]
    simp only [serializeChunk, List.append_assoc]
    rw [List.getElem_append_right (by simp; omega), List.getElem_append_right (by simp; omega),
      List.getElem_append_left (by simp; omega)]
    congr 1; simp; omega
  · rw [← be32bytes_getElem, show o + 8 + d.length + i = o + (8 + d.length + i) by omega, key _ (by omega)]
    simp only [serializeChunk, List.append_assoc]
    rw [List.getElem_append_right (by simp; omega), List.getElem_append_right (by simp; omega),
      List.getElem_append_right (by simp; omega)]
    congr 1; simp; omega

/-! ### The CRC generator (R78, R79) -/

/-- Feeding a buffer range is feeding its bytes by offset (R83). -/
theorem crcFeed_memRead (s : State) (a n : Nat) (c : Word) :
    crcFeed c (memRead s a n) = (List.range n).foldl (fun c i => crcStep c (s.ibufByte (a + i))) c := by
  simp [crcFeed, memRead, List.foldl_map]

@[simp] theorem crcFeed_nil (c : Word) : crcFeed c [] = c := rfl

@[simp] theorem crcFeed_cons (c : Word) (b : Byte) (bs : List Byte) :
    crcFeed c (b :: bs) = crcFeed (crcStep c b) bs := rfl

theorem crcFeed_append (c : Word) (as bs : List Byte) : crcFeed c (as ++ bs) = crcFeed (crcFeed c as) bs :=
  List.foldl_append

/-! ### Tags (R85, R86) -/

theorem tagError_eq_none (t : Quad) :
    tagError t = none ↔ isAlpha t.b0 = true ∧ isAlpha t.b1 = true ∧ isAlpha t.b2 = true ∧ isAlpha t.b3 = true := by
  simp only [tagError]
  cases isAlpha t.b0 <;> cases isAlpha t.b1 <;> cases isAlpha t.b2 <;> cases isAlpha t.b3 <;> simp

/-- The byte that an InvalidByte reports is the first one that is not alphabetic (R85). -/
theorem tagError_firstBadByte (t : Quad) : (tagError t).map t.at = firstBadByte t := by
  simp only [tagError, firstBadByte, Quad.toList, List.find?]
  cases isAlpha t.b0 <;> cases isAlpha t.b1 <;> cases isAlpha t.b2 <;> cases isAlpha t.b3 <;> rfl

theorem checkTag_eq (t : Quad) (s : State) :
    checkTag t s = match firstBadByte t with
      | some b => .raise .invalidByte (zext32 b) s
      | none => .done s := by
  rw [← tagError_firstBadByte, checkTag]
  cases tagError t <;> rfl

theorem firstBadByte_eq_none (t : Quad) :
    firstBadByte t = none ↔ isAlpha t.b0 = true ∧ isAlpha t.b1 = true ∧ isAlpha t.b2 = true ∧ isAlpha t.b3 = true := by
  rw [← tagError_eq_none, ← tagError_firstBadByte]
  cases tagError t <;> simp

/-- Six flags packed in a word: the value is below 64, and bit j is flag j (R86). -/
theorem sixFlags_getLsbD (a v s r p c : Bool) :
    let w : Word := (BitVec.ofBool a ++ BitVec.ofBool v ++ BitVec.ofBool s ++ BitVec.ofBool r ++ BitVec.ofBool p
      ++ BitVec.ofBool c).setWidth 32
    w.toNat < 64 ∧ w.getLsbD 0 = c ∧ w.getLsbD 1 = p ∧ w.getLsbD 2 = r ∧ w.getLsbD 3 = s ∧ w.getLsbD 4 = v ∧
      w.getLsbD 5 = a := by
  revert a v s r p c
  decide

/-! ### The slice parser (R91) -/

/-- What parse_slice does, with its checks in order. -/
theorem parseSlice_eq (a n : Nat) (s : State) :
    parseSlice a n s =
      match firstBadByte (memRead4 s (a + 4)) with
      | some b => .raise .invalidByte (zext32 b) (writeParse a n s)
      | none =>
        if (writeParse a n s).chunkCrc ≠ (writeParse a n s).calcCrc then
          .raise .crcMismatch (writeParse a n s).calcCrc (writeParse a n s)
        else if declaredLength s a ≠ n - 12 then
          .raise .lengthMismatch (toWord (n - 12)) (writeParse a n s)
        else .done (writeParse a n s) := by
  rw [parseSlice, checkTag_eq]
  cases firstBadByte (memRead4 s (a + 4)) <;> rfl

/-- parse_slice on the slice that the chunk's own declared length frames: LengthMismatch cannot arise (R101). -/
theorem parseSlice_framed (p : Nat) (s : State) :
    parseSlice p (12 + declaredLength s p) s =
      match firstBadByte (memRead4 s (p + 4)) with
      | some b => .raise .invalidByte (zext32 b) (writeParse p (12 + declaredLength s p) s)
      | none =>
        if crcMatches s p then .done (writeParse p (12 + declaredLength s p) s)
        else
          .raise .crcMismatch (crc32 ((memRead4 s (p + 4)).toList ++ memRead s (p + 8) (declaredLength s p)))
            (writeParse p (12 + declaredLength s p) s) := by
  rw [parseSlice_eq]
  cases firstBadByte (memRead4 s (p + 4)) with
  | some b => rfl
  | none =>
    have e1 : p + (12 + declaredLength s p) - 4 = p + 8 + declaredLength s p := by omega
    have e2 : 12 + declaredLength s p - 12 = declaredLength s p := by omega
    simp only [writeParse_chunkCrc, writeParse_calcCrc, e1, e2, ne_eq, not_true_eq_false, if_false, crcMatches]
    split <;> simp_all

theorem goodChunk_parseSlice {s : State} {e p : Nat} (h : goodChunk s e p) :
    parseSlice p (12 + declaredLength s p) s = .done (writeParse p (12 + declaredLength s p) s) := by
  simp [parseSlice_framed, h.2.1, h.2.2]

/-! ### The signature (R99) -/

/-- The signature compare finds nothing exactly when the eight bytes are there and are SIG. -/
theorem sigError_eq_none (s : State) (e : Nat) :
    sigError s e = none ↔ ∀ i, i < 8 → i < e ∧ s.ibufByte i = sigByte i := by
  simp only [sigError, List.find?_eq_none, List.mem_range, Bool.or_eq_true, decide_eq_true_eq, bne_iff_ne, not_or,
    Nat.not_le, ne_eq, not_not]

/-- The signature compare finds the first byte that is missing or differs. -/
theorem sigError_eq_some {s : State} {e k : Nat} :
    sigError s e = some k ↔
      k < 8 ∧ (e ≤ k ∨ s.ibufByte k ≠ sigByte k) ∧ ∀ i, i < k → i < e ∧ s.ibufByte i = sigByte i := by
  simp only [sigError, List.find?_range_eq_some, Bool.or_eq_true, decide_eq_true_eq, bne_iff_ne, List.mem_range,
    Bool.not_eq_true', Bool.or_eq_false_iff, decide_eq_false_iff_not, Nat.not_le, bne_eq_false_iff_eq, ne_eq]
  tauto

/-! ### The end of a command (R73, R74, R107) -/

/-- A rule that returns without EOI ends in success. -/
theorem finish_done (w : Word) (s t : State) (h : t.status = (issue w s).status) :
    (Effect.done t).finish = { t with status := Status.success false } := by
  simp [Effect.finish, complete, h, Status.success]

/-- A rule that raises ends in the record of the error. -/
theorem finish_raise (w : Word) (s t : State) (k : ErrorKind) (v : Word) (h : t.status = (issue w s).status) :
    (Effect.raise k v t).finish = { t with status := Status.failure k, errInfo := v } := by
  simp [Effect.finish, raiseError, complete, h, Status.failure]

/-- Every command goes on: no command faults or is refused (R120). -/
theorem exec_next (i : Instr) (s : State) : ∃ t, exec i s = .next t := by cases i <;> exact ⟨_, rfl⟩

end Sys2Proof.Machine
end

