-- ==== Sys2Proof/Laws/Commands.lean ====
section
/-! SUPPORT. One lemma per case of each command's rule (41_crc.md to 44_container.md), in the order of its checks, and
each command as its rule run in the command cycle (40_command_cycle.md R73). -/

namespace Sys2Proof.Machine

/-! ### The command cycle -/

/-- The rule that a command runs between issue and completion. -/
def ruleOf : Instr → State → Effect
  | .nop => .done
  | .crcInit => ruleCrcInit
  | .crcByte b => ruleCrcByte b
  | .crcBuf => ruleCrcBuf
  | .crcW32 => ruleCrcW32
  | .ldBe32 => ruleLdBe32
  | .stBe32 => ruleStBe32
  | .copy => ruleCopy
  | .typeChk => ruleTypeChk
  | .sigChk => ruleSigChk
  | .sigWr => ruleSigWr
  | .chkParse => ruleChkParse
  | .chkNext => ruleChkNext
  | .chkEmit => ruleChkEmit
  | .pngParse => rulePngParse

/-- Every command is its rule in the command cycle (R73). -/
theorem exec_eq (i : Instr) (s : State) : exec i s = .next (ruleOf i (issue (encode i) s)).finish := by
  cases i <;> rfl

/-- What a command leaves, from what its rule gives. -/
theorem exec_eq_next {i : Instr} {s t : State} (h : exec i s = .next t) :
    t = (ruleOf i (issue (encode i) s)).finish := by
  rw [exec_eq] at h
  cases h
  rfl

/-! ### CRC_BUF, LD_BE32, ST_BE32, COPY, SIG_WR -/

theorem ruleCrcBuf_bounds {s : State} (h : ¬ inI s s.src.toNat s.cnt.toNat) :
    ruleCrcBuf s = .raise .bufferBounds 0 s := if_pos h

theorem ruleCrcBuf_done {s : State} (h : inI s s.src.toNat s.cnt.toNat) :
    ruleCrcBuf s = .done { s with crcState := crcFeed s.crcState (memRead s s.src.toNat s.cnt.toNat) } :=
  if_neg (not_not.2 h)

theorem ruleLdBe32_bounds {s : State} (h : ¬ inI s s.src.toNat 4) : ruleLdBe32 s = .raise .bufferBounds 0 s :=
  if_pos h

theorem ruleLdBe32_done {s : State} (h : inI s s.src.toNat 4) :
    ruleLdBe32 s = .done { s with result := be32 (memRead4 s s.src.toNat) } := if_neg (not_not.2 h)

theorem ruleStBe32_bounds {s : State} (h : ¬ inO s s.optr.toNat 4) : ruleStBe32 s = .raise .bufferBounds 0 s :=
  if_pos h

theorem ruleStBe32_done {s : State} (h : inO s s.optr.toNat 4) :
    ruleStBe32 s =
      .done { memWrite s s.optr.toNat (be32bytes s.val).toList with optr := toWord (s.optr.toNat + 4) } :=
  if_neg (not_not.2 h)

theorem ruleCopy_bounds {s : State} (h : ¬ (inI s s.src.toNat s.cnt.toNat ∧ inO s s.optr.toNat s.cnt.toNat)) :
    ruleCopy s = .raise .bufferBounds 0 s := by
  by_cases h1 : inI s s.src.toNat s.cnt.toNat
  · exact (if_neg (not_not.2 h1)).trans (if_pos fun h2 => h ⟨h1, h2⟩)
  · exact if_pos h1

theorem ruleCopy_done {s : State} (h1 : inI s s.src.toNat s.cnt.toNat) (h2 : inO s s.optr.toNat s.cnt.toNat) :
    ruleCopy s =
      .done { memWrite s s.optr.toNat (memRead s s.src.toNat s.cnt.toNat) with
        optr := toWord (s.optr.toNat + s.cnt.toNat) } :=
  (if_neg (not_not.2 h1)).trans (if_neg (not_not.2 h2))

theorem ruleSigWr_bounds {s : State} (h : ¬ inO s s.optr.toNat 8) : ruleSigWr s = .raise .bufferBounds 0 s := if_pos h

theorem ruleSigWr_done {s : State} (h : inO s s.optr.toNat 8) :
    ruleSigWr s = .done { memWrite s s.optr.toNat sig with optr := toWord (s.optr.toNat + 8) } := if_neg (not_not.2 h)

/-! ### CHK_PARSE and CHK_EMIT -/

theorem ruleChkParse_bounds {s : State} (h : ¬ inI s s.src.toNat s.cnt.toNat) :
    ruleChkParse s = .raise .bufferBounds 0 s := if_pos h

theorem ruleChkParse_truncated {s : State} (h1 : inI s s.src.toNat s.cnt.toNat) (h2 : s.cnt.toNat < 12) :
    ruleChkParse s = .raise .truncated (toWord s.cnt.toNat) s := (if_neg (not_not.2 h1)).trans (if_pos h2)

theorem ruleChkParse_slice {s : State} (h1 : inI s s.src.toNat s.cnt.toNat) (h2 : ¬ s.cnt.toNat < 12) :
    ruleChkParse s = parseSlice s.src.toNat s.cnt.toNat s := (if_neg (not_not.2 h1)).trans (if_neg h2)

theorem ruleChkEmit_bounds {s : State}
    (h : ¬ (inI s s.src.toNat s.cnt.toNat ∧ inO s s.optr.toNat (12 + s.cnt.toNat))) :
    ruleChkEmit s = .raise .bufferBounds 0 s := by
  by_cases h1 : inI s s.src.toNat s.cnt.toNat
  · exact (if_neg (not_not.2 h1)).trans (if_pos fun h2 => h ⟨h1, h2⟩)
  · exact if_pos h1

theorem ruleChkEmit_invalid {s : State} (h1 : inI s s.src.toNat s.cnt.toNat)
    (h2 : inO s s.optr.toNat (12 + s.cnt.toNat)) {b : Byte} (h3 : firstBadByte (be32bytes s.val) = some b) :
    ruleChkEmit s = .raise .invalidByte (zext32 b) { s with typeFlags := tagFlags (be32bytes s.val) } := by
  refine ((if_neg (not_not.2 h1)).trans (if_neg (not_not.2 h2))).trans ?_
  rw [checkTag_eq, valBytes, h3]
  rfl

theorem ruleChkEmit_done {s : State} (h1 : inI s s.src.toNat s.cnt.toNat)
    (h2 : inO s s.optr.toNat (12 + s.cnt.toNat)) (h3 : firstBadByte (be32bytes s.val) = none) :
    ruleChkEmit s =
      .done { memWrite s s.optr.toNat (serializeChunk (be32bytes s.val) (memRead s s.src.toNat s.cnt.toNat)) with
        typeFlags := tagFlags (be32bytes s.val)
        calcCrc := crc32 ((be32bytes s.val).toList ++ memRead s s.src.toNat s.cnt.toNat)
        optr := toWord (s.optr.toNat + 12 + s.cnt.toNat) } := by
  refine ((if_neg (not_not.2 h1)).trans (if_neg (not_not.2 h2))).trans ?_
  rw [checkTag_eq, valBytes, h3]
  rfl

/-! ### SIG_CHK, CHK_NEXT, PNG_PARSE -/

theorem ruleSigChk_bounds {s : State} (h : s.params.ibufSize.bytes < s.ibufLen.toNat) :
    ruleSigChk s = .raise .bufferBounds 0 s := if_pos h

theorem ruleSigChk_bad {s : State} (h : ¬ s.params.ibufSize.bytes < s.ibufLen.toNat) {k : Nat}
    (hk : sigError s s.ibufLen.toNat = some k) :
    ruleSigChk s = .raise .badSignature (toWord k) { s with cursor := 0, chunkCount := 0 } := by
  refine (if_neg h).trans ?_
  rw [show sigError { s with cursor := 0, chunkCount := 0 } (inputEnd s) = some k from hk]

theorem ruleSigChk_done {s : State} (h : ¬ s.params.ibufSize.bytes < s.ibufLen.toNat)
    (hk : sigError s s.ibufLen.toNat = none) : ruleSigChk s = .done { s with cursor := 8, chunkCount := 0 } := by
  refine (if_neg h).trans ?_
  rw [show sigError { s with cursor := 0, chunkCount := 0 } (inputEnd s) = none from hk]

theorem ruleChkNext_bounds {s : State}
    (h : s.params.ibufSize.bytes < s.ibufLen.toNat ∨ s.ibufLen.toNat < s.cursor.toNat) :
    ruleChkNext s = .raise .bufferBounds 0 s := if_pos h

theorem ruleChkNext_end {s : State}
    (h1 : ¬ (s.params.ibufSize.bytes < s.ibufLen.toNat ∨ s.ibufLen.toNat < s.cursor.toNat))
    (h2 : s.cursor.toNat = s.ibufLen.toNat) :
    ruleChkNext s = .done { s with status := { s.status with eoi := true } } := (if_neg h1).trans (if_pos h2)

theorem ruleChkNext_truncated {s : State}
    (h1 : ¬ (s.params.ibufSize.bytes < s.ibufLen.toNat ∨ s.ibufLen.toNat < s.cursor.toNat))
    (h2 : s.cursor.toNat ≠ s.ibufLen.toNat) (h3 : ¬ framed s s.ibufLen.toNat s.cursor.toNat) :
    ruleChkNext s = .raise .truncated (toWord (s.ibufLen.toNat - s.cursor.toNat)) s := by
  refine ((if_neg h1).trans (if_neg h2)).trans ?_
  by_cases h4 : inputEnd s - walkCursor s < 12
  · exact if_pos h4
  · refine (if_neg h4).trans (if_pos ?_)
    exact Nat.not_le.1 fun h5 => h3 ⟨Nat.not_lt.1 h4, h5⟩

theorem ruleChkNext_framed {s : State}
    (h1 : ¬ (s.params.ibufSize.bytes < s.ibufLen.toNat ∨ s.ibufLen.toNat < s.cursor.toNat))
    (h3 : framed s s.ibufLen.toNat s.cursor.toNat) :
    ruleChkNext s =
      (parseSlice s.cursor.toNat (12 + declaredLength s s.cursor.toNat) s).andThen fun t =>
        .done { t with
          cursor := toWord (s.cursor.toNat + 12 + declaredLength s s.cursor.toNat)
          chunkCount := t.chunkCount + 1 } := by
  obtain ⟨h4, h5⟩ := h3
  have h2 : ¬ walkCursor s = inputEnd s := fun h => by
    have : s.cursor.toNat = s.ibufLen.toNat := h
    omega
  exact ((if_neg h1).trans (if_neg h2)).trans ((if_neg (Nat.not_lt.2 h4)).trans (if_neg (Nat.not_lt.2 h5)))

theorem rulePngParse_bounds {s : State} (h : s.params.ibufSize.bytes < s.ibufLen.toNat) :
    rulePngParse s = .raise .bufferBounds 0 { s with chunkCount := 0 } := if_pos h

theorem rulePngParse_bad {s : State} (h : ¬ s.params.ibufSize.bytes < s.ibufLen.toNat) {k : Nat}
    (hk : sigError s s.ibufLen.toNat = some k) :
    rulePngParse s = .raise .badSignature (toWord k) { s with cursor := 0, chunkCount := 0 } := by
  refine (if_neg h).trans ?_
  rw [show sigError { s with cursor := 0, chunkCount := 0 } (inputEnd s) = some k from hk]

theorem rulePngParse_walk {s : State} (h : ¬ s.params.ibufSize.bytes < s.ibufLen.toNat)
    (hk : sigError s s.ibufLen.toNat = none) :
    rulePngParse s =
      walkLoop s.ibufLen.toNat (s.ibufLen.toNat - 8) 8 0 { s with cursor := 0, chunkCount := 0 } := by
  refine (if_neg h).trans ?_
  rw [show sigError { s with cursor := 0, chunkCount := 0 } (inputEnd s) = none from hk]
  rfl

/-! ### One pass of PNG_PARSE's loop (R102) -/

theorem walkLoop_end (e fuel count : Nat) (s : State) : walkLoop e fuel e count s = walkEnd e count s := by
  cases fuel with
  | zero => rfl
  | succ fuel => exact if_pos rfl

theorem walkLoop_truncated {e fuel p count : Nat} {s : State} (hf : e - p ≤ fuel) (h1 : p < e) (h2 : ¬ framed s e p) :
    walkLoop e fuel p count s = .raise .truncated (toWord (e - p)) { s with cursor := toWord p } := by
  cases fuel with
  | zero => omega
  | succ fuel =>
    refine (if_neg (by omega)).trans ?_
    by_cases h3 : e - p < 12
    · exact if_pos h3
    · refine (if_neg h3).trans (if_pos ?_)
      exact Nat.not_le.1 fun h4 => h2 ⟨Nat.not_lt.1 h3, h4⟩

theorem walkLoop_framed {e fuel p count : Nat} {s : State} (hf : e - p ≤ fuel) (h : framed s e p) :
    walkLoop e fuel p count s =
      (parseSlice p (12 + declaredLength s p) { s with cursor := toWord p }).andThen fun t =>
        walkLoop e (fuel - 1) (p + 12 + declaredLength s p) (count + 1) t := by
  obtain ⟨h1, h2⟩ := h
  cases fuel with
  | zero => omega
  | succ fuel =>
    exact (if_neg (by omega)).trans ((if_neg (Nat.not_lt.2 h1)).trans (if_neg (Nat.not_lt.2 h2)))

end Sys2Proof.Machine
end

