-- ==== Sys2Proof/Laws/Crc.lean ====
section
/-! SUPPORT. The CRC generator's algebra (41_crc.md R78, R80): a shift is linear over XOR and loses nothing, so feeding
bytes loses nothing either. -/

namespace Sys2Proof.Machine

/-- A shift is linear over XOR (R78). -/
theorem crcShift_xor (a b : Word) : crcShift (a ^^^ b) = crcShift a ^^^ crcShift b := by
  simp only [crcShift, BitVec.getLsbD_xor]
  cases a.getLsbD 0 <;> cases b.getLsbD 0 <;> simp [BitVec.ushiftRight_xor_distrib]
  · ac_rfl
  · ac_rfl
  · rw [show a >>> 1 ^^^ 3988292384#32 ^^^ (b >>> 1 ^^^ 3988292384#32) =
      a >>> 1 ^^^ b >>> 1 ^^^ (3988292384#32 ^^^ 3988292384#32) by ac_rfl]
    simp

theorem crcShifts_xor (k : Nat) (a b : Word) : crcShifts k (a ^^^ b) = crcShifts k a ^^^ crcShifts k b := by
  induction k generalizing a b with
  | zero => rfl
  | succ k ih => simp only [crcShifts, crcShift_xor, ih]

/-- A shift loses nothing: bit 31 of its result is the bit shifted out (R78). -/
theorem crcShift_inj {a b : Word} (h : crcShift a = crcShift b) : a = b := by
  have h31 := congrArg (fun v => v.getLsbD 31) h
  have e : ∀ c : Word, (crcShift c).getLsbD 31 = c.getLsbD 0 := by
    intro c; simp only [crcShift]; cases h : c.getLsbD 0 <;> simp
  simp only [e] at h31
  apply BitVec.eq_of_getLsbD_eq
  intro i hi
  cases i with
  | zero => exact h31
  | succ i =>
    have h2 : a >>> 1 = b >>> 1 := by
      simp only [crcShift, h31] at h
      split at h
      · exact (BitVec.xor_left_inj _).1 h
      · exact h
    have := congrArg (fun v => v.getLsbD i) h2
    simpa [Nat.add_comm] using this

theorem crcShifts_inj {k : Nat} {a b : Word} (h : crcShifts k a = crcShifts k b) : a = b := by
  induction k generalizing a b with
  | zero => exact h
  | succ k ih => exact crcShift_inj (ih h)

theorem crcStep_inj_left {c d : Word} {b : Byte} (h : crcStep c b = crcStep d b) : c = d :=
  (BitVec.xor_left_inj _).1 (crcShifts_inj h)

/-- One CRC register fed two different bytes differs (R80). -/
theorem crcStep_inj_right {c : Word} {b d : Byte} (h : crcStep c b = crcStep c d) : b = d := by
  have h := (BitVec.xor_right_inj _).1 (crcShifts_inj h)
  simp only [zext32] at h
  have h := congrArg BitVec.toNat h
  rw [BitVec.toNat_setWidth, BitVec.toNat_setWidth, Nat.mod_eq_of_lt (by omega), Nat.mod_eq_of_lt (by omega)] at h
  exact BitVec.eq_of_toNat_eq h

/-- Two CRC registers fed the same bytes stay different (R80). -/
theorem crcFeed_inj {c d : Word} {bs : List Byte} (h : crcFeed c bs = crcFeed d bs) : c = d := by
  induction bs generalizing c d with
  | nil => exact h
  | cons b bs ih => exact crcStep_inj_left (ih h)

/-- Shifting a value whose low `k` bits are 0 is a plain shift (R78). -/
theorem crcShifts_high (k : Nat) (y : Word) (h : ∀ i, i < k → y.getLsbD i = false) : crcShifts k y = y >>> k := by
  induction k generalizing y with
  | zero => simp [crcShifts]
  | succ k ih =>
    have h0 := h 0 (by omega)
    have e : crcShift y = y >>> 1 := by simp only [crcShift, h0]; rfl
    rw [crcShifts, e, ih]
    · apply BitVec.eq_of_getLsbD_eq; intro i hi; simp only [BitVec.getLsbD_ushiftRight]; congr 1; omega
    · intro i hi; rw [BitVec.getLsbD_ushiftRight]; exact h _ (by omega)

end Sys2Proof.Machine
end

