-- ==== Sys2Proof/Laws/Decode.lean ====
section
/-! SUPPORT. The command word is its three fields (30_encoding.md R64), and the fields of an encoded command. -/

namespace Sys2Proof

/-- A word whose RSV is 0 is made of its IMM8 and its OPC (R64). -/
theorem word_of_fields {w : Word} (h : rsvOf w = 0) :
    w = (immOf w).setWidth 32 <<< 8 ||| (opcOf w).setWidth 32 := by
  apply BitVec.eq_of_getLsbD_eq
  intro i hi
  have hr := congrArg (fun v => v.getLsbD (i - 16)) h
  simp only [rsvOf, BitVec.getLsbD_extractLsb'] at hr
  simp only [immOf, opcOf, BitVec.getLsbD_or, BitVec.getLsbD_shiftLeft, BitVec.getLsbD_setWidth,
    BitVec.getLsbD_extractLsb', hi, decide_true, Bool.true_and]
  by_cases a : i < 8
  · simp [a]
  · by_cases b : i < 16
    · simp [a, show i - 8 < 8 by omega, show i - 8 < 32 by omega, show 8 + (i - 8) = i by omega]
    · have : w.getLsbD i = false := by simpa [show i - 16 < 16 by omega, show 16 + (i - 16) = i by omega] using hr
      simp [a, show ¬ i - 8 < 8 by omega, this]

theorem opcOf_encode_crcByte (b : Byte) : opcOf (encode (.crcByte b)) = 0x02 := by revert b; decide
theorem immOf_encode_crcByte (b : Byte) : immOf (encode (.crcByte b)) = b := by revert b; decide
theorem rsvOf_encode_crcByte (b : Byte) : rsvOf (encode (.crcByte b)) = 0 := by revert b; decide

/-- What decode accepts: the reserved field is 0, the opcode selects the command, and IMM8 is 0 unless OPC is 0x02. -/
theorem decode_eq_ok {w : Word} {i : Instr} :
    decode w = .ok i ↔ rsvOf w = 0 ∧ commandOf (opcOf w) (immOf w) = some i ∧ (opcOf w = 0x02 ∨ immOf w = 0) := by
  unfold decode
  by_cases h1 : rsvOf w = 0
  · rw [if_neg (not_not.2 h1)]
    cases commandOf (opcOf w) (immOf w) with
    | none => exact ⟨fun h => (nomatch h), fun h => (nomatch h.2.1)⟩
    | some j =>
      by_cases h3 : opcOf w ≠ 0x02 ∧ immOf w ≠ 0
      · exact ⟨fun h => (by simp only [if_pos h3] at h; cases h), fun h => absurd h.2.2 (not_or.2 h3)⟩
      · have h4 : opcOf w = 0x02 ∨ immOf w = 0 := by tauto
        simp only [if_neg h3]
        exact ⟨fun h => ⟨h1, by cases h; rfl, h4⟩, fun h => by cases h.2.1; rfl⟩
  · rw [if_pos h1]
    exact ⟨fun h => (nomatch h), fun h => absurd h.1 h1⟩

theorem byte_of_toNat {b : Byte} {n : Nat} (h : b.toNat = n) : b = BitVec.ofNat 8 n := by
  rw [← h, BitVec.ofNat_toNat, BitVec.setWidth_eq]

/-- The opcodes that select a command are the assigned ones (R67). -/
theorem commandOf_isSome (op imm : Byte) : (∃ i, commandOf op imm = some i) ↔ op ∈ assignedOpcodes := by
  constructor
  · rintro ⟨i, h⟩
    unfold commandOf at h
    split at h
    case h_16 => cases h
    all_goals
      rename_i a
      obtain rfl := byte_of_toNat a
      decide
  · intro h
    simp only [assignedOpcodes, List.mem_cons, List.not_mem_nil, or_false] at h
    rcases h with h | h | h | h | h | h | h | h | h | h | h | h | h | h | h <;> subst h <;> exact ⟨_, rfl⟩

/-- The fields that decode accepts are those of the selected command's word (R67). -/
theorem fields_of_commandOf {op imm : Byte} {i : Instr} (h : commandOf op imm = some i)
    (himm : op = 0x02 ∨ imm = 0) : imm.setWidth 32 <<< 8 ||| op.setWidth 32 = encode i := by
  unfold commandOf at h
  split at h
  case h_16 => cases h
  all_goals
    rename_i a
    obtain rfl := byte_of_toNat a
    cases h
    first
      | rfl
      | (rcases himm with himm | rfl
         · exact absurd himm (by decide)
         · rfl)

end Sys2Proof
end

