-- ==== Sys2Proof/Laws/Frame.lean ====
section
/-! SUPPORT. What any command's rule can do, said once: what it keeps, what it may write before it returns or raises, and
what it may raise (10_state.md R42, 60_exceptions.md R106). -/

namespace Sys2Proof.Machine

/-- A property of the state a rule returned with, or of the kind, value and state it raised with. -/
def Effect.Sat (D : State → Prop) (R : ErrorKind → Word → State → Prop) : Effect → Prop
  | .done t => D t
  | .raise k v t => R k v t

/-- What every rule keeps, and where TYPE_FLAGS can come from. -/
structure RuleKeeps (s t : State) : Prop where
  params : t.params = s.params
  cmd : t.cmd = s.cmd
  ctrl : t.ctrl = s.ctrl
  errInfo : t.errInfo = s.errInfo
  ibuf : t.ibuf = s.ibuf
  powerOns : t.powerOns = s.powerOns
  pending : t.pending = s.pending
  lastRead : t.lastRead = s.lastRead
  typeFlags : t.typeFlags = s.typeFlags ∨ ∃ q, t.typeFlags = tagFlags q

/-- What a command's rule can do when it returns. -/
structure RuleDone (i : Instr) (s t : State) : Prop where
  keeps : RuleKeeps s t
  status : t.status = s.status ∨
    i ∈ ([.chkNext, .pngParse] : List Instr) ∧ t.status = { s.status with eoi := true }
  obuf : t.obuf = s.obuf ∨ i ∈ ([.stBe32, .copy, .sigWr, .chkEmit] : List Instr) ∧
    ∃ a bs, t.obuf = Memory.storeAll s.obuf a bs ∧ a + bs.length ≤ s.params.obufSize.bytes
  reg : ∀ r, r ∉ ([.status, .crcOut] : List Reg) → r ∉ commandWrites i → t.reg r = s.reg r
  crcState : Reg.crcState ∉ commandWrites i → t.crcState = s.crcState

/-- What a command's rule can have done when it raises kind `k` with value `v`. -/
structure RuleRaise (i : Instr) (s : State) (k : ErrorKind) (v : Word) (t : State) : Prop where
  keeps : RuleKeeps s t
  kind : k ∈ commandRaises i
  bounds : k = .bufferBounds → v = 0
  status : t.status = s.status
  obuf : t.obuf = s.obuf
  reg : ∀ r, r ∉ commandWritesBeforeRaise i k → t.reg r = s.reg r

theorem RuleKeeps.refl (s : State) : RuleKeeps s s := ⟨rfl, rfl, rfl, rfl, rfl, rfl, rfl, rfl, .inl rfl⟩

theorem RuleRaise.unchanged {i : Instr} {k : ErrorKind} (hk : k ∈ commandRaises i) (v : Word) (s : State)
    (h : k = .bufferBounds → v = 0) : RuleRaise i s k v s :=
  ⟨.refl s, hk, h, rfl, rfl, fun _ _ => rfl⟩

/-- A part of a walk: `t` is `s` but for the nine registers of R42's row of PNG_PARSE. -/
def Walked (s t : State) : Prop :=
  ∃ a b c d e f g cu n, t = { s with
      chunkLen := a, chunkType := b, chunkCrc := c, calcCrc := d, dataOff := e, dataLen := f, typeFlags := g,
      cursor := cu, chunkCount := n } ∧
    (g = s.typeFlags ∨ ∃ q, g = tagFlags q)

theorem Walked.refl (s : State) : Walked s s := ⟨_, _, _, _, _, _, _, _, _, rfl, .inl rfl⟩

theorem Walked.trans {s t u : State} (h1 : Walked s t) (h2 : Walked t u) : Walked s u := by
  obtain ⟨_, _, _, _, _, _, _, _, _, rfl, h1⟩ := h1
  obtain ⟨_, _, _, _, _, _, _, _, _, rfl, h2⟩ := h2
  refine ⟨_, _, _, _, _, _, _, _, _, rfl, ?_⟩
  rcases h2 with h2 | h2
  · exact h2 ▸ h1
  · exact .inr h2

theorem Walked.writeParse (p n : Nat) (s : State) : Walked s (writeParse p n s) :=
  ⟨_, _, _, _, _, _, _, s.cursor, s.chunkCount, rfl, .inr ⟨_, rfl⟩⟩

theorem Walked.cursor (s : State) (c : Word) : Walked s { s with cursor := c } :=
  ⟨_, _, _, _, _, _, _, _, _, rfl, .inl rfl⟩

theorem Walked.place (s : State) (c n : Word) : Walked s { s with cursor := c, chunkCount := n } :=
  ⟨_, _, _, _, _, _, _, _, _, rfl, .inl rfl⟩

theorem Walked.keeps {s t : State} (h : Walked s t) : RuleKeeps s t := by
  obtain ⟨_, _, _, _, _, _, _, _, _, rfl, h⟩ := h
  exact ⟨rfl, rfl, rfl, rfl, rfl, rfl, rfl, rfl, h⟩

/-- What PNG_PARSE's loop can do from any position, with any fuel (R102). -/
theorem walkLoop_sat (e fuel p count : Nat) (s : State) :
    (walkLoop e fuel p count s).Sat (fun t => ∃ u, Walked s u ∧ t = { u with status := { u.status with eoi := true } })
      fun k _ t => Walked s t ∧ k ∈ ([.truncated, .invalidByte, .crcMismatch] : List ErrorKind) := by
  induction fuel generalizing p count s with
  | zero =>
    exact ⟨{ s with cursor := toWord p, chunkCount := toWord count }, .place s _ _, rfl⟩
  | succ fuel ih =>
    unfold walkLoop
    by_cases h1 : p = e
    · rw [if_pos h1]
      exact ⟨{ s with cursor := toWord p, chunkCount := toWord count }, .place s _ _, rfl⟩
    rw [if_neg h1]
    by_cases h2 : e - p < 12
    · rw [if_pos h2]
      exact ⟨.cursor _ _, by decide⟩
    rw [if_neg h2]
    by_cases h3 : e - p < 12 + declaredLength s p
    · exact (if_pos h3).symm ▸ ⟨.cursor _ _, by decide⟩
    · refine (if_neg h3).symm ▸ ?_
      change Effect.Sat _ _ ((parseSlice p (12 + declaredLength { s with cursor := toWord p } p) _).andThen _)
      rw [parseSlice_framed]
      have hw := (Walked.cursor s (toWord p)).trans
        (Walked.writeParse p (12 + declaredLength { s with cursor := toWord p } p) _)
      cases firstBadByte (memRead4 { s with cursor := toWord p } (p + 4)) with
      | some b => exact ⟨hw, by decide⟩
      | none =>
        by_cases h4 : crcMatches { s with cursor := toWord p } p
        · simp only [if_pos h4, Effect.andThen]
          have := ih (p + 12 + declaredLength s p) (count + 1)
            (Machine.writeParse p (12 + declaredLength { s with cursor := toWord p } p) { s with cursor := toWord p })
          revert this
          simp only [declaredLength]
          cases walkLoop e fuel _ (count + 1) _ with
          | done t => rintro ⟨u, hu, rfl⟩; exact ⟨u, hw.trans hu, rfl⟩
          | raise k v t => rintro ⟨hu, hk⟩; exact ⟨hw.trans hu, hk⟩
        · simp only [if_neg h4]
          exact ⟨hw, by decide⟩

/-- What any command's rule can do. -/
theorem rule_sat (i : Instr) (s : State) : (ruleOf i s).Sat (RuleDone i s) (RuleRaise i s) := by
  have bounds : ∀ {i : Instr}, .bufferBounds ∈ commandRaises i → RuleRaise i s .bufferBounds 0 s :=
    fun h => .unchanged h 0 s fun _ => rfl
  cases i with
  | nop => exact ⟨.refl s, .inl rfl, .inl rfl, fun _ _ _ => rfl, fun _ => rfl⟩
  | crcInit =>
    exact ⟨⟨rfl, rfl, rfl, rfl, rfl, rfl, rfl, rfl, .inl rfl⟩, .inl rfl, .inl rfl,
      fun r h1 h2 => by
        cases r <;> first | rfl | exact (h1 (by decide)).elim | exact (h2 (by simp [commandWrites])).elim,
      fun h => absurd h (by decide)⟩
  | crcByte b =>
    exact ⟨⟨rfl, rfl, rfl, rfl, rfl, rfl, rfl, rfl, .inl rfl⟩, .inl rfl, .inl rfl,
      fun r h1 h2 => by
        cases r <;> first | rfl | exact (h1 (by decide)).elim | exact (h2 (by simp [commandWrites])).elim,
      fun h => absurd h (by simp [commandWrites])⟩
  | crcBuf =>
    by_cases h : inI s s.src.toNat s.cnt.toNat
    · rw [ruleOf, ruleCrcBuf_done h]
      exact ⟨⟨rfl, rfl, rfl, rfl, rfl, rfl, rfl, rfl, .inl rfl⟩, .inl rfl, .inl rfl,
        fun r h1 h2 => by
          cases r <;> first | rfl | exact (h1 (by decide)).elim | exact (h2 (by simp [commandWrites])).elim,
        fun h => absurd h (by decide)⟩
    · rw [ruleOf, ruleCrcBuf_bounds h]
      exact bounds (by decide)
  | crcW32 =>
    exact ⟨⟨rfl, rfl, rfl, rfl, rfl, rfl, rfl, rfl, .inl rfl⟩, .inl rfl, .inl rfl,
      fun r h1 h2 => by
        cases r <;> first | rfl | exact (h1 (by decide)).elim | exact (h2 (by simp [commandWrites])).elim,
      fun h => absurd h (by decide)⟩
  | ldBe32 =>
    by_cases h : inI s s.src.toNat 4
    · rw [ruleOf, ruleLdBe32_done h]
      exact ⟨⟨rfl, rfl, rfl, rfl, rfl, rfl, rfl, rfl, .inl rfl⟩, .inl rfl, .inl rfl,
        fun r h1 h2 => by
          cases r <;> first | rfl | exact (h1 (by decide)).elim | exact (h2 (by simp [commandWrites])).elim,
        fun _ => rfl⟩
    · rw [ruleOf, ruleLdBe32_bounds h]
      exact bounds (by decide)
  | stBe32 =>
    by_cases h : inO s s.optr.toNat 4
    · rw [ruleOf, ruleStBe32_done h]
      exact ⟨⟨rfl, rfl, rfl, rfl, rfl, rfl, rfl, rfl, .inl rfl⟩, .inl rfl, .inr ⟨by decide, _, _, rfl, h⟩,
        fun r h1 h2 => by
          cases r <;> first | rfl | exact (h1 (by decide)).elim | exact (h2 (by simp [commandWrites])).elim,
        fun _ => rfl⟩
    · rw [ruleOf, ruleStBe32_bounds h]
      exact bounds (by decide)
  | copy =>
    by_cases h : inI s s.src.toNat s.cnt.toNat ∧ inO s s.optr.toNat s.cnt.toNat
    · rw [ruleOf, ruleCopy_done h.1 h.2]
      exact ⟨⟨rfl, rfl, rfl, rfl, rfl, rfl, rfl, rfl, .inl rfl⟩, .inl rfl,
        .inr ⟨by decide, _, _, rfl, by rw [memRead_length]; exact h.2⟩,
        fun r h1 h2 => by
          cases r <;> first | rfl | exact (h1 (by decide)).elim | exact (h2 (by simp [commandWrites])).elim,
        fun _ => rfl⟩
    · rw [ruleOf, ruleCopy_bounds h]
      exact bounds (by decide)
  | typeChk =>
    rw [ruleOf, ruleTypeChk, checkTag_eq]
    cases firstBadByte (valBytes s) with
    | some b =>
      exact ⟨⟨rfl, rfl, rfl, rfl, rfl, rfl, rfl, rfl, .inr ⟨_, rfl⟩⟩, by decide, fun h => (nomatch h), rfl, rfl,
        fun r h => by cases r <;> first | rfl | exact (h (by decide)).elim⟩
    | none =>
      exact ⟨⟨rfl, rfl, rfl, rfl, rfl, rfl, rfl, rfl, .inr ⟨_, rfl⟩⟩, .inl rfl, .inl rfl,
        fun r h1 h2 => by
          cases r <;> first | rfl | exact (h1 (by decide)).elim | exact (h2 (by simp [commandWrites])).elim,
        fun _ => rfl⟩
  | sigChk =>
    by_cases h : s.params.ibufSize.bytes < s.ibufLen.toNat
    · rw [ruleOf, ruleSigChk_bounds h]
      exact bounds (by decide)
    · cases hk : sigError s s.ibufLen.toNat with
      | some k =>
        rw [ruleOf, ruleSigChk_bad h hk]
        exact ⟨⟨rfl, rfl, rfl, rfl, rfl, rfl, rfl, rfl, .inl rfl⟩, by decide, fun h => (nomatch h), rfl, rfl,
          fun r h => by cases r <;> first | rfl | exact (h (by decide)).elim⟩
      | none =>
        rw [ruleOf, ruleSigChk_done h hk]
        exact ⟨⟨rfl, rfl, rfl, rfl, rfl, rfl, rfl, rfl, .inl rfl⟩, .inl rfl, .inl rfl,
          fun r h1 h2 => by
            cases r <;> first | rfl | exact (h1 (by decide)).elim | exact (h2 (by simp [commandWrites])).elim,
          fun _ => rfl⟩
  | sigWr =>
    by_cases h : inO s s.optr.toNat 8
    · rw [ruleOf, ruleSigWr_done h]
      exact ⟨⟨rfl, rfl, rfl, rfl, rfl, rfl, rfl, rfl, .inl rfl⟩, .inl rfl, .inr ⟨by decide, _, _, rfl, h⟩,
        fun r h1 h2 => by
          cases r <;> first | rfl | exact (h1 (by decide)).elim | exact (h2 (by simp [commandWrites])).elim,
        fun _ => rfl⟩
    · rw [ruleOf, ruleSigWr_bounds h]
      exact bounds (by decide)
  | chkParse =>
    by_cases h1 : inI s s.src.toNat s.cnt.toNat
    · by_cases h2 : s.cnt.toNat < 12
      · rw [ruleOf, ruleChkParse_truncated h1 h2]
        exact .unchanged (by decide) _ s fun h => nomatch h
      · rw [ruleOf, ruleChkParse_slice h1 h2, parseSlice_eq]
        have hk := (Walked.writeParse s.src.toNat s.cnt.toNat s).keeps
        cases firstBadByte (memRead4 s (s.src.toNat + 4)) with
        | some b =>
          exact ⟨hk, by decide, fun h => (nomatch h), rfl, rfl,
            fun r h => by cases r <;> first | rfl | exact (h (by decide)).elim⟩
        | none =>
          dsimp only
          split
          · exact ⟨hk, by decide, fun h => (nomatch h), rfl, rfl,
              fun r h => by cases r <;> first | rfl | exact (h (by decide)).elim⟩
          split
          · exact ⟨hk, by decide, fun h => (nomatch h), rfl, rfl,
              fun r h => by cases r <;> first | rfl | exact (h (by decide)).elim⟩
          · exact ⟨hk, .inl rfl, .inl rfl,
              fun r h1 h2 => by
                cases r <;> first | rfl | exact (h1 (by decide)).elim | exact (h2 (by simp [commandWrites])).elim,
              fun _ => rfl⟩
    · rw [ruleOf, ruleChkParse_bounds h1]
      exact bounds (by decide)
  | chkNext =>
    by_cases h1 : s.params.ibufSize.bytes < s.ibufLen.toNat ∨ s.ibufLen.toNat < s.cursor.toNat
    · rw [ruleOf, ruleChkNext_bounds h1]
      exact bounds (by decide)
    by_cases h2 : s.cursor.toNat = s.ibufLen.toNat
    · rw [ruleOf, ruleChkNext_end h1 h2]
      exact ⟨⟨rfl, rfl, rfl, rfl, rfl, rfl, rfl, rfl, .inl rfl⟩, .inr ⟨by decide, rfl⟩, .inl rfl,
        fun r h1 h2 => by
          cases r <;> first | rfl | exact (h1 (by decide)).elim,
        fun _ => rfl⟩
    by_cases h3 : framed s s.ibufLen.toNat s.cursor.toNat
    · rw [ruleOf, ruleChkNext_framed h1 h3, parseSlice_framed]
      have hk := (Walked.writeParse s.cursor.toNat (12 + declaredLength s s.cursor.toNat) s).keeps
      cases firstBadByte (memRead4 s (s.cursor.toNat + 4)) with
      | some b =>
        exact ⟨hk, by decide, fun h => (nomatch h), rfl, rfl,
          fun r h => by cases r <;> first | rfl | exact (h (by decide)).elim⟩
      | none =>
        by_cases h4 : crcMatches s s.cursor.toNat
        · simp only [if_pos h4]
          exact ⟨⟨rfl, rfl, rfl, rfl, rfl, rfl, rfl, rfl, .inr ⟨_, rfl⟩⟩, .inl rfl, .inl rfl,
            fun r h1 h2 => by
              cases r <;> first | rfl | exact (h1 (by decide)).elim | exact (h2 (by simp [commandWrites])).elim,
            fun _ => rfl⟩
        · simp only [if_neg h4]
          exact ⟨hk, by decide, fun h => (nomatch h), rfl, rfl,
            fun r h => by cases r <;> first | rfl | exact (h (by decide)).elim⟩
    · rw [ruleOf, ruleChkNext_truncated h1 h2 h3]
      exact .unchanged (by decide) _ s fun h => nomatch h
  | chkEmit =>
    by_cases h : inI s s.src.toNat s.cnt.toNat ∧ inO s s.optr.toNat (12 + s.cnt.toNat)
    · cases hb : firstBadByte (be32bytes s.val) with
      | some b =>
        rw [ruleOf, ruleChkEmit_invalid h.1 h.2 hb]
        exact ⟨⟨rfl, rfl, rfl, rfl, rfl, rfl, rfl, rfl, .inr ⟨_, rfl⟩⟩, by decide, fun h => (nomatch h), rfl, rfl,
          fun r h => by cases r <;> first | rfl | exact (h (by decide)).elim⟩
      | none =>
        rw [ruleOf, ruleChkEmit_done h.1 h.2 hb]
        exact ⟨⟨rfl, rfl, rfl, rfl, rfl, rfl, rfl, rfl, .inr ⟨_, rfl⟩⟩, .inl rfl,
          .inr ⟨by decide, _, _, rfl, by rw [serializeChunk_length, memRead_length]; exact h.2⟩,
          fun r h1 h2 => by
            cases r <;> first | rfl | exact (h1 (by decide)).elim | exact (h2 (by simp [commandWrites])).elim,
          fun _ => rfl⟩
    · rw [ruleOf, ruleChkEmit_bounds h]
      exact bounds (by decide)
  | pngParse =>
    by_cases h : s.params.ibufSize.bytes < s.ibufLen.toNat
    · rw [ruleOf, rulePngParse_bounds h]
      exact ⟨⟨rfl, rfl, rfl, rfl, rfl, rfl, rfl, rfl, .inl rfl⟩, by decide, fun _ => rfl, rfl, rfl,
        fun r h => by cases r <;> first | rfl | exact (h (by decide)).elim⟩
    · cases hk : sigError s s.ibufLen.toNat with
      | some k =>
        rw [ruleOf, rulePngParse_bad h hk]
        exact ⟨⟨rfl, rfl, rfl, rfl, rfl, rfl, rfl, rfl, .inl rfl⟩, by decide, fun h => (nomatch h), rfl, rfl,
          fun r h => by cases r <;> first | rfl | exact (h (by decide)).elim⟩
      | none =>
        rw [ruleOf, rulePngParse_walk h hk]
        have h1 := walkLoop_sat s.ibufLen.toNat (s.ibufLen.toNat - 8) 8 0 { s with cursor := 0, chunkCount := 0 }
        revert h1
        cases walkLoop _ _ 8 0 _ with
        | done t =>
          rintro ⟨u, hu, rfl⟩
          obtain ⟨_, _, _, _, _, _, _, _, _, rfl, hf⟩ := hu
          exact ⟨⟨rfl, rfl, rfl, rfl, rfl, rfl, rfl, rfl, hf⟩, .inr ⟨by decide, rfl⟩, .inl rfl,
            fun r h1 h2 => by
              cases r <;> first | rfl | exact (h1 (by decide)).elim | exact (h2 (by simp [commandWrites])).elim,
            fun _ => rfl⟩
        | raise k v t =>
          rintro ⟨⟨_, _, _, _, _, _, _, _, _, rfl, hf⟩, hk⟩
          simp only [List.mem_cons, List.not_mem_nil, or_false] at hk
          rcases hk with rfl | rfl | rfl <;>
          exact ⟨⟨rfl, rfl, rfl, rfl, rfl, rfl, rfl, rfl, hf⟩, by decide, fun h => (nomatch h), rfl, rfl,
            fun r h => by cases r <;> first | rfl | exact (h (by decide)).elim⟩

end Sys2Proof.Machine
end

