-- ==== Sys2Proof/Laws/PerInstr.lean ====
section
/-! SUPPORT. The family EncodedWord: what holds of every command's word, one lemma per command (30_encoding.md R64, R67,
R68). -/

namespace Sys2Proof.Laws.EncodedWord

/-- The word of a well-formed command is legal, its RSV is 0, its IMM8 is 0 unless it is CRC_BYTE, and it decodes to the
command. -/
def Statement (i : Instr) : Prop :=
  i.wellFormed = true → legal (encode i) = true ∧ rsvOf (encode i) = 0 ∧
    ((∀ b, i ≠ .crcByte b) → immOf (encode i) = 0) ∧ decode (encode i) = .ok i

theorem nop : Statement .nop := fun _ => ⟨rfl, rfl, fun _ => rfl, rfl⟩

theorem crcInit : Statement .crcInit := fun _ => ⟨rfl, rfl, fun _ => rfl, rfl⟩

theorem crcByte (b : Byte) : Statement (.crcByte b) := fun _ =>
  ⟨by revert b; decide, rsvOf_encode_crcByte b, fun h => absurd rfl (h b), by
    rw [decode_eq_ok, rsvOf_encode_crcByte, opcOf_encode_crcByte, immOf_encode_crcByte]
    exact ⟨rfl, rfl, .inl rfl⟩⟩

theorem crcBuf : Statement .crcBuf := fun _ => ⟨rfl, rfl, fun _ => rfl, rfl⟩

theorem crcW32 : Statement .crcW32 := fun _ => ⟨rfl, rfl, fun _ => rfl, rfl⟩

theorem ldBe32 : Statement .ldBe32 := fun _ => ⟨rfl, rfl, fun _ => rfl, rfl⟩

theorem stBe32 : Statement .stBe32 := fun _ => ⟨rfl, rfl, fun _ => rfl, rfl⟩

theorem copy : Statement .copy := fun _ => ⟨rfl, rfl, fun _ => rfl, rfl⟩

theorem typeChk : Statement .typeChk := fun _ => ⟨rfl, rfl, fun _ => rfl, rfl⟩

theorem sigChk : Statement .sigChk := fun _ => ⟨rfl, rfl, fun _ => rfl, rfl⟩

theorem sigWr : Statement .sigWr := fun _ => ⟨rfl, rfl, fun _ => rfl, rfl⟩

theorem chkParse : Statement .chkParse := fun _ => ⟨rfl, rfl, fun _ => rfl, rfl⟩

theorem chkNext : Statement .chkNext := fun _ => ⟨rfl, rfl, fun _ => rfl, rfl⟩

theorem chkEmit : Statement .chkEmit := fun _ => ⟨rfl, rfl, fun _ => rfl, rfl⟩

theorem pngParse : Statement .pngParse := fun _ => ⟨rfl, rfl, fun _ => rfl, rfl⟩

end Sys2Proof.Laws.EncodedWord
end

