-- ==== Sys2Proof/Laws/Step.lean ====
section
/-! SUPPORT. A step by the kind of its action: what each does when the block is not busy. -/

namespace Sys2Proof.Machine

/-- Every register is found at its own offset (R17). -/
theorem reg_atOffset (r : Reg) : Reg.atOffset r.offset = some r := by cases r <;> rfl

theorem reg_aligned (r : Reg) : r.offset.toNat % 4 = 0 := by cases r <;> rfl

/-- A step performs the first action on the state with it taken off. -/
theorem step_cons (s : State) (act : HostAction) (rest : List HostAction) :
    step { s with pending := act :: rest } = perform act { s with pending := rest } := rfl

/-- `wr` (R71) when the block is not busy. -/
theorem perform_wr {s : State} (h : s.status.busy = false) (r : Reg) (v : Word) :
    perform (wr r v) s = writeRegister r v s := by
  simp [perform, wr, h, windowRefusal, reg_aligned, writeWindow, reg_atOffset]

/-- `rd` (R71) when the block is not busy. -/
theorem perform_rd {s : State} (h : s.status.busy = false) (r : Reg) :
    perform (rd r) s = .next { s with lastRead := some (.word (s.reg r)) } := by
  simp [perform, rd, h, windowRefusal, reg_aligned, readWindow, reg_atOffset]

/-- A step whose next action is `wr` (R71), when the block is not busy. -/
theorem step_wr {s : State} (h : s.status.busy = false) (r : Reg) (v : Word) (rest : List HostAction) :
    step { s with pending := wr r v :: rest } = writeRegister r v { s with pending := rest } :=
  perform_wr (s := { s with pending := rest }) h r v

/-- A step whose next action is `rd` (R71), when the block is not busy. -/
theorem step_rd {s : State} (h : s.status.busy = false) (r : Reg) (rest : List HostAction) :
    step { s with pending := rd r :: rest } =
      .next { s with pending := rest, lastRead := some (.word (s.reg r)) } := by
  rw [step_cons, perform_rd (s := { s with pending := rest }) h]
  cases r <;> rfl

/-- `cmd` (R71): a decoded word runs its command. -/
theorem issueWord_of_decode {w : Word} {i : Instr} (h : decode w = .ok i) (s : State) : issueWord w s = exec i s := by
  simp [issueWord, h]

/-- An illegal word raises BadCommand (R75). -/
theorem issueWord_of_error {w : Word} {e : IllegalWord} (h : decode w = .error e) (s : State) :
    issueWord w s = .next (badCommand w s) := by
  simp [issueWord, h]

/-- A host byte write changes exactly the byte it names (R44). -/
theorem bufferByte_writeBuffer (s : State) (b : Buffer) (a : Nat) (v : Byte) (b' : Buffer) (x : Nat) :
    (writeBuffer b a v s).bufferByte b' x = if b' = b ∧ x = a then v else s.bufferByte b' x := by
  cases b <;> cases b' <;>
    simp [writeBuffer, State.bufferByte, State.ibufByte, State.obufByte, Memory.read, Memory.written_store]
  all_goals split <;> simp_all

/-- A register write always goes on (R120). -/
theorem writeRegister_next (r : Reg) (v : Word) (s : State) : ∃ t, writeRegister r v s = .next t := by
  cases r
  case cmd =>
    simp only [writeRegister, issueWord]
    cases decode v with
    | ok i => exact exec_next i s
    | error e => exact ⟨_, rfl⟩
  all_goals exact ⟨_, rfl⟩

/-- A run whose first step goes on (R15). -/
theorem run_succ {n : Nat} {s t : State} (h : step s = .next t) : core.run (n + 1) s = core.run n t := by
  have h' : core.step s = .next t := h
  simp only [Host.Core.run, h']

/-- An offset from 0x54 on is no register (R19). -/
theorem atOffset_unmapped {off : BitVec 8} (h : 0x54 ≤ off.toNat) : Reg.atOffset off = none := by
  unfold Reg.atOffset
  rw [List.find?_eq_none]
  intro r _ hr
  have : off = r.offset := (eq_of_beq hr).symm
  subst this
  revert h
  cases r <;> decide

end Sys2Proof.Machine
end

