-- ==== Sys2Proof/Laws/Walk.lean ====
section
/-! SUPPORT. The container walk (44_container.md R102): good chunks do not depend on the registers, PNG_PARSE's loop goes
past them, and how it ends at a bad one. -/

namespace Sys2Proof.Machine

/-- Two states with the same input have the same good chunks (R98). -/
theorem goodChunks_congr (s t : State) (h : t.ibuf = s.ibuf) (h' : t.powerOns = s.powerOns) (e p n q : Nat) :
    goodChunks t e p n q ↔ goodChunks s e p n q := by
  have hb : ∀ a, t.ibufByte a = s.ibufByte a := fun a => by simp [State.ibufByte, h, h']
  have h4 : ∀ a, memRead4 t a = memRead4 s a := fun a => by simp [memRead4, hb]
  have hm : ∀ a n, memRead t a n = memRead s a n := fun a n => by simp [memRead, hb]
  induction n generalizing p with
  | zero => exact Iff.rfl
  | succ n ih => simp only [goodChunks, goodChunk, framed, crcMatches, declaredLength, h4, hm, ih]

/-- Good chunks never pass the end of input (R102). -/
theorem goodChunks_le {s : State} {e p n q : Nat} (h : goodChunks s e p n q) (hp : p ≤ e) : q ≤ e := by
  induction n generalizing p with
  | zero => exact h ▸ hp
  | succ n ih =>
    obtain ⟨⟨⟨h1, h2⟩, -⟩, h3⟩ := h
    exact ih h3 (by omega)

/-- The parse registers of a walk do not depend on CURSOR. -/
theorem parsedChunks_cursor (s : State) (c : Word) (p n : Nat) :
    parsedChunks { s with cursor := c } p n = { parsedChunks s p n with cursor := c } := by
  induction n generalizing s p with
  | zero => rfl
  | succ n ih => exact ih (writeParse p (12 + declaredLength s p) s) _

/-- A walk's chunks leave IBUF as it is. -/
theorem parsedChunks_ibuf (s : State) (p n : Nat) :
    (parsedChunks s p n).ibuf = s.ibuf ∧ (parsedChunks s p n).powerOns = s.powerOns := by
  induction n generalizing s p with
  | zero => exact ⟨rfl, rfl⟩
  | succ n ih => exact ih _ _

/-- PNG_PARSE's loop goes past good chunks: it counts them, keeps the last one's parse registers, and has fuel left. -/
theorem walkLoop_good {e n p q count fuel : Nat} {s : State} (hf : e - p ≤ fuel) (h : goodChunks s e p n q) :
    ∃ fuel' c, e - q ≤ fuel' ∧
      walkLoop e fuel p count s = walkLoop e fuel' q (count + n) { parsedChunks s p n with cursor := c } := by
  induction n generalizing p count fuel s with
  | zero => exact h ▸ ⟨fuel, s.cursor, hf, rfl⟩
  | succ n ih =>
    obtain ⟨h1, h2⟩ := h
    let t := writeParse p (12 + declaredLength s p) { s with cursor := toWord p }
    rw [walkLoop_framed hf h1.1,
      show parseSlice p (12 + declaredLength s p) { s with cursor := toWord p } = .done t from
        goodChunk_parseSlice (s := { s with cursor := toWord p }) h1]
    have hl := h1.1.1
    have hl2 := h1.1.2
    obtain ⟨f, c, hf', e1⟩ := ih (s := t) (p := p + 12 + declaredLength s p) (count := count + 1) (fuel := fuel - 1)
      (by omega) ((goodChunks_congr s t rfl rfl _ _ _ _).2 h2)
    refine ⟨f, c, hf', ?_⟩
    simp only [Effect.andThen]
    rw [e1, show count + 1 + n = count + (n + 1) by omega]
    congr 1
    show ({ parsedChunks { writeParse p (12 + declaredLength s p) s with cursor := toWord p } _ n with
      cursor := c } : State) = _
    rw [parsedChunks_cursor]
    rfl

/-- PNG_PARSE's loop at a framed chunk whose tag is not alphabetic (R102). -/
theorem walkLoop_invalid {e fuel p count : Nat} {s : State} (hf : e - p ≤ fuel) (h : framed s e p) {b : Byte}
    (hb : firstBadByte (memRead4 s (p + 4)) = some b) :
    walkLoop e fuel p count s =
      .raise .invalidByte (zext32 b) (writeParse p (12 + declaredLength s p) { s with cursor := toWord p }) := by
  rw [walkLoop_framed hf h, show parseSlice p (12 + declaredLength s p) { s with cursor := toWord p } =
    .raise .invalidByte (zext32 b) (writeParse p (12 + declaredLength s p) { s with cursor := toWord p }) from ?_]
  · rfl
  · rw [parseSlice_eq, show firstBadByte (memRead4 { s with cursor := toWord p } (p + 4)) = some b from hb]

/-- PNG_PARSE's loop at a framed chunk whose CRC is wrong (R102). -/
theorem walkLoop_crc {e fuel p count : Nat} {s : State} (hf : e - p ≤ fuel) (h : framed s e p)
    (hb : firstBadByte (memRead4 s (p + 4)) = none) (hc : ¬ crcMatches s p) :
    walkLoop e fuel p count s =
      .raise .crcMismatch (crc32 ((memRead4 s (p + 4)).toList ++ memRead s (p + 8) (declaredLength s p)))
        (writeParse p (12 + declaredLength s p) { s with cursor := toWord p }) := by
  rw [walkLoop_framed hf h]
  have := parseSlice_framed p { s with cursor := toWord p }
  rw [show firstBadByte (memRead4 { s with cursor := toWord p } (p + 4)) = none from hb] at this
  dsimp only at this
  rw [if_neg (by exact hc)] at this
  exact congrArg (fun x : Effect => x.andThen _) this

end Sys2Proof.Machine
end

