-- ==== Sys2Proof/Tests/Slice0.lean ====
section
/-! SUPPORT. Tests. Expected values come from spec/95_test_vectors.md and the worked examples of the rules, or are
written out from the encodings of 30_encoding.md; each test names its source. -/

namespace Sys2Proof.Tests

open Sys2Proof.Machine

-- One theorem after the other: the kernel evaluations below would otherwise all wait for each other at once.
set_option Elab.async false

/-- A reset block of 256-byte buffers whose IBUF holds `bytes` from offset `a` (95_test_vectors.md, conventions). -/
def loaded (a : Nat) (bytes : List Byte) : State :=
  { State.powerOn ⟨⟨255⟩, ⟨255⟩⟩ 0 with ibuf := Memory.storeAll [] a bytes }

/-- What a test reads of an outcome that goes on. -/
def seen {α : Type} (o : Host.Outcome State Fault Refusal) (f : State → α) : Option α := (nextState o).map f

/-- The bytes OBUF[a .. a+n) that something has written. -/
def written (s : State) (a n : Nat) : List (Option Byte) := (List.range n).map fun i => Memory.written s.obuf (a + i)

/-- "123456789". -/
def digits : List Byte := [0x31, 0x32, 0x33, 0x34, 0x35, 0x36, 0x37, 0x38, 0x39]

/-- The payload of V-SRC-1, "This is where your secret message will be!". -/
def payload : List Byte :=
  [0x54, 0x68, 0x69, 0x73, 0x20, 0x69, 0x73, 0x20, 0x77, 0x68, 0x65, 0x72, 0x65, 0x20, 0x79, 0x6F,
    0x75, 0x72, 0x20, 0x73, 0x65, 0x63, 0x72, 0x65, 0x74, 0x20, 0x6D, 0x65, 0x73, 0x73, 0x61, 0x67,
    0x65, 0x20, 0x77, 0x69, 0x6C, 0x6C, 0x20, 0x62, 0x65, 0x21]

/-- RUST54 of 95_test_vectors.md. -/
def rust54 : List Byte :=
  [0x00, 0x00, 0x00, 0x2A, 0x52, 0x75, 0x53, 0x74] ++ payload ++ [0xAB, 0xD1, 0xD8, 0x4E]

/-- IEND12 of 95_test_vectors.md. -/
def iend12 : List Byte := [0x00, 0x00, 0x00, 0x00, 0x49, 0x45, 0x4E, 0x44, 0xAE, 0x42, 0x60, 0x82]

/-- PNG74 of 95_test_vectors.md. -/
def png74 : List Byte := [0x89, 0x50, 0x4E, 0x47, 0x0D, 0x0A, 0x1A, 0x0A] ++ rust54 ++ iend12

/-! ## The command word (30_encoding.md) -/

/-- R68: a word with RSV bit 16 set is ill formed. -/
theorem test_legal_refuses_reserved : legal 0x00010000 = false := by decide
/-- R68: an unassigned opcode is ill formed. -/
theorem test_legal_refuses_opcode : legal 0x00000105 = false := by decide
/-- R68: an immediate on CRC_INIT is ill formed. -/
theorem test_legal_refuses_immediate : legal 0x00000101 = false := by decide
/-- R69's three spaces, each rejected by its name. -/
theorem test_decode_rejects_by_name :
    decode 0x80000021 = .error .nonzeroReserved ∧ decode 0x00000105 = .error .unassignedOpcode ∧
      decode 0x0000FF22 = .error .nonzeroImmediate := ⟨rfl, rfl, rfl⟩
/-- The column `word` of R67, bit by bit: RSV, IMM8, OPC. -/
theorem test_decode_words :
    decode 0b00000000000000000000000000000000 = .ok .nop ∧
    decode 0b00000000000000000000000000000001 = .ok .crcInit ∧
    decode 0b00000000000000000110000100000010 = .ok (.crcByte 0x61) ∧
    decode 0b00000000000000000000000000000011 = .ok .crcBuf ∧
    decode 0b00000000000000000000000000000100 = .ok .crcW32 ∧
    decode 0b00000000000000000000000000001000 = .ok .ldBe32 ∧
    decode 0b00000000000000000000000000001001 = .ok .stBe32 ∧
    decode 0b00000000000000000000000000001010 = .ok .copy ∧
    decode 0b00000000000000000000000000010000 = .ok .typeChk ∧
    decode 0b00000000000000000000000000011000 = .ok .sigChk ∧
    decode 0b00000000000000000000000000011001 = .ok .sigWr ∧
    decode 0b00000000000000000000000000100000 = .ok .chkParse ∧
    decode 0b00000000000000000000000000100001 = .ok .chkNext ∧
    decode 0b00000000000000000000000000100010 = .ok .chkEmit ∧
    decode 0b00000000000000000000000000100011 = .ok .pngParse :=
  ⟨rfl, rfl, rfl, rfl, rfl, rfl, rfl, rfl, rfl, rfl, rfl, rfl, rfl, rfl, rfl⟩
/-- The host's table check reads a word as the decoder does. -/
theorem test_decodeTableWord : decodeTableWord 32 0x00006102 = some (.crcByte 0x61) := rfl
/-- WellFormed admits every value of IMM8 (R82). -/
theorem test_wellFormed_crcByte : Instr.wellFormed (.crcByte 0xFF) = true := rfl

/-! ## Command cycle (40_command_cycle.md) -/

/-- R75's example and V-CMD-1. -/
theorem test_badCommand :
    seen (step (State.reset.withFetchWord 32 0xFF)) (fun t => (t.status.toWord, t.errInfo, t.crcState)) =
      some (0x00000086, 0x000000FF, 0xFFFFFFFF) := by decide +kernel
/-- V-CMD-8, and V-CMD-12: after an error a NOP clears the record. -/
theorem test_nop :
    seen (exec .nop (badCommand 0xFF State.reset)) (fun t => (t.cmd, t.status.toWord, t.errInfo)) =
      some (0, 0x00000002, 0) := by decide +kernel

/-! ## CRC family (41_crc.md) -/

/-- R81's example. -/
theorem test_crcInit :
    seen (exec .crcInit { State.reset with crcState := 0x1234ABCD }) (fun t => (t.crcState, crcOut t)) =
      some (0xFFFFFFFF, 0) := by decide +kernel
/-- V-CRC-3. -/
theorem test_crcByte :
    seen (exec (.crcByte 0x61) State.reset) (fun t => (t.cmd, t.crcState, crcOut t)) =
      some (0x00006102, 0x174841BC, 0xE8B7BE43) := by decide +kernel
/-- V-CRC-1, the check value of R77. -/
theorem test_crcBuf :
    seen (exec .crcBuf { loaded 0 digits with cnt := 9 }) (fun t => (t.crcState, crcOut t)) =
      some (0x340BC6D9, 0xCBF43926) := by decide +kernel
/-- V-CRC-12: the sum does not wrap. -/
theorem test_crcBuf_bounds :
    seen (exec .crcBuf { State.reset with src := 0xFFFFFFFF, cnt := 2 }) (fun t => (t.status.toWord, t.crcState)) =
      some (0x00000096, 0xFFFFFFFF) := by decide +kernel
/-- V-CRC-6: the first byte fed is v[31:24]. -/
theorem test_crcW32 :
    seen (exec .crcW32 { State.reset with val := 0x49454E44 }) (fun t => (t.crcState, crcOut t)) =
      some (0x51BD9F7D, 0xAE426082) := by decide +kernel

/-! ## Type-tag family (42_type_tag.md) -/

/-- V-TAG-1. -/
theorem test_typeChk :
    seen (exec .typeChk { State.reset with val := 0x52755374 }) (fun t => (t.typeFlags, t.status.toWord)) =
      some (0x3D, 0x02) := by decide +kernel
/-- V-TAG-15: VALID = 1 yet ALPHA = 0. -/
theorem test_typeChk_invalid :
    seen (exec .typeChk { State.reset with val := 0x52F55374 })
      (fun t => (t.typeFlags, t.status.toWord, t.errInfo)) = some (0x1D, 0x16, 0xF5) := by decide +kernel

/-! ## Field, copy and chunk commands (43_chunk.md) -/

/-- V-FLD-1. -/
theorem test_ldBe32 :
    seen (exec .ldBe32 { loaded 1 [1, 2, 3, 4] with src := 1 }) (fun t => t.result) = some 0x01020304 := by
  decide +kernel
/-- V-FLD-3: one byte past the last field. -/
theorem test_ldBe32_bounds :
    seen (exec .ldBe32 { State.reset with src := 253, result := 0xFFFFFFFF })
      (fun t => (t.status.toWord, t.result)) = some (0x96, 0xFFFFFFFF) := by decide +kernel
/-- V-FLD-4. -/
theorem test_stBe32 :
    seen (exec .stBe32 { State.reset with optr := 252, val := 0xDEADBEEF }) (fun t => (written t 251 5, t.optr)) =
      some ([none, some 0xDE, some 0xAD, some 0xBE, some 0xEF], 256) := by decide +kernel
/-- V-FLD-7. -/
theorem test_copy :
    seen (exec .copy { loaded 100 [0x41, 0x42, 0x43] with src := 100, cnt := 3, optr := 16 })
      (fun t => (written t 16 4, t.optr)) = some ([some 0x41, some 0x42, some 0x43, none], 19) := by decide +kernel
/-- V-FLD-10. -/
theorem test_copy_bounds :
    seen (exec .copy { State.reset with cnt := 10, optr := 250 }) (fun t => (t.status.toWord, t.optr, t.obuf)) =
      some (0x96, 250, []) := by decide +kernel
/-- V-CHK-1. -/
theorem test_chkParse :
    seen (exec .chkParse { loaded 0 rust54 with cnt := 54 })
      (fun t => [t.status.toWord, t.chunkLen, t.chunkType, t.chunkCrc, t.calcCrc, t.dataOff, t.dataLen, t.typeFlags]) =
      some [0x02, 0x2A, 0x52755374, 0xABD1D84E, 0xABD1D84E, 8, 0x2A, 0x3D] := by decide +kernel
/-- V-CHK-10: the CRC is checked before the length. -/
theorem test_chkParse_crc :
    seen (exec .chkParse { loaded 0 (rust54.take 50 ++ [0x21] ++ rust54.drop 50) with cnt := 55 })
      (fun t => [t.status.toWord, t.errInfo, t.chunkCrc, t.calcCrc, t.dataLen]) =
      some [0x36, 0x0FA4429C, 0xABD1D84E, 0x0FA4429C, 0x2B] := by decide +kernel
/-- V-EMT-1. -/
theorem test_chkEmit :
    seen (exec .chkEmit { loaded 0 payload with val := 0x52755374, cnt := 42, optr := 8 })
      (fun t => (written t 8 54, t.optr, t.calcCrc, t.typeFlags)) =
      some (rust54.map some, 0x3E, 0xABD1D84E, 0x3D) := by decide +kernel
/-- V-EMT-3: an invalid tag is reported after the bounds, and nothing is written. -/
theorem test_chkEmit_invalid :
    seen (exec .chkEmit { State.reset with val := 0x52753174, optr := 0x4A, calcCrc := 0xAE426082 })
      (fun t => ([t.status.toWord, t.errInfo, t.typeFlags, t.optr, t.calcCrc], t.obuf)) =
      some ([0x16, 0x31, 0x09, 0x4A, 0xAE426082], []) := by decide +kernel

/-! ## Container commands (44_container.md) -/

/-- R99's example. -/
theorem test_sigChk :
    seen (exec .sigChk { loaded 0 sig with ibufLen := 8, chunkCount := 5 })
      (fun t => [t.status.toWord, t.cursor, t.chunkCount]) = some [0x02, 8, 0] := by decide +kernel
/-- R99's corner case: seven right bytes. -/
theorem test_sigChk_short :
    seen (exec .sigChk { loaded 0 (sig.take 7) with ibufLen := 7, cursor := 9 })
      (fun t => [t.status.toWord, t.errInfo, t.cursor]) = some [0x56, 7, 0] := by decide +kernel
/-- V-SIG-2. -/
theorem test_sigWr :
    seen (exec .sigWr { State.reset with optr := 248 }) (fun t => (written t 248 8, t.optr)) =
      some (sig.map some, 256) := by decide +kernel
/-- V-WLK-2. -/
theorem test_chkNext :
    seen (exec .chkNext { loaded 0 png74 with ibufLen := 74, cursor := 8 })
      (fun t => [t.status.toWord, t.cursor, t.chunkCount, t.chunkType, t.chunkLen, t.dataOff]) =
      some [0x02, 0x3E, 1, 0x52755374, 0x2A, 0x10] := by decide +kernel
/-- V-WLK-4. -/
theorem test_chkNext_end :
    seen (exec .chkNext { loaded 0 png74 with ibufLen := 74, cursor := 74, chunkCount := 2 })
      (fun t => [t.status.toWord, t.cursor, t.chunkCount]) = some [0x0A, 0x4A, 2] := by decide +kernel
/-- V-CON-1. -/
theorem test_pngParse :
    seen (exec .pngParse { loaded 0 png74 with ibufLen := 74 })
      (fun t => [t.status.toWord, t.cursor, t.chunkCount, t.chunkType, t.calcCrc, t.dataOff]) =
      some [0x0A, 0x4A, 2, 0x49454E44, 0xAE426082, 0x46] := by decide +kernel
/-- V-CON-8: the input ends inside the second chunk. -/
theorem test_pngParse_truncated :
    seen (exec .pngParse { loaded 0 png74 with ibufLen := 73 })
      (fun t => [t.status.toWord, t.errInfo, t.cursor, t.chunkCount, t.chunkType, t.calcCrc]) =
      some [0x76, 0x0B, 0x3E, 0, 0x52755374, 0xABD1D84E] := by decide +kernel

/-! ## Host accesses (10_state.md, 70_reset_and_hazards.md) -/

/-- V-CMD-9: DONE is W1C. -/
theorem test_status_w1c :
    seen (step { badCommand 0xFF State.reset with pending := [wr .status 2] }) (fun t => t.status.toWord) =
      some 0x84 := by decide +kernel
/-- V-CMD-11: a soft reset. -/
theorem test_soft_reset :
    seen (step { loaded 0 digits with crcState := 0xAED1D46C, val := 5, ctrl := ⟨true⟩, pending := [wr .ctrl 2] })
      (fun t => ([t.reg .ctrl, t.val, t.crcState, t.reg .crcOut], t.ibuf == (loaded 0 digits).ibuf)) =
      some ([0, 0, 0xFFFFFFFF, 0], true) := by decide +kernel
/-- R17's map: CRC_STATE is read at 0x24. -/
theorem test_read_crcState :
    seen (step { State.reset with pending := [.readReg .word 0x24] }) (fun t => t.lastRead) =
      some (some (.word 0xFFFFFFFF)) := by decide +kernel
/-- R18: a misaligned access is refused. -/
theorem test_misaligned_refused :
    step { State.reset with pending := [.writeReg .word 0x0E 0] } = .refused .registerAccessMisaligned := rfl

/-! ## Witnesses

Each shows a concrete state and operands that meet the hypotheses of the statement it is named after, with a boundary
value for each clause. -/

/-- The state a command goes on with. -/
def after (i : Instr) (s : State) : State := (nextState (exec i s)).getD s

theorem exec_after (i : Instr) (s : State) : exec i s = .next (after i s) := by cases i <;> rfl

/-- A state that is not the reset state: an error is recorded and the host will issue CRC_INIT. -/
def busyHost : State := { badCommand 0xFF (loaded 0 digits) with pending := [cmd .crcInit] }

theorem witness_SoftResetKeepsTheBuffers :
    busyHost.status.busy = false ∧ (0x00000002 : Word).getLsbD 1 = true ∧ (0x00000003 : Word).getLsbD 1 = true := by
  decide

theorem witness_EveryStepKeepsTheInvariant : busyHost.Inv ∧ ∃ t, step busyHost = .next t :=
  ⟨by constructor <;> decide +kernel, _, rfl⟩

theorem witness_DecodeAcceptsExactlyTheLegalWords :
    decode 0x0000FF02 = .ok (.crcByte 0xFF) ∧ decode 0x00000023 = .ok .pngParse ∧
      decode 0x00000024 = .error .unassignedOpcode := ⟨rfl, rfl, rfl⟩

theorem witness_StepRunsTheIssuedCommand :
    (loaded 0 digits).status.busy = false ∧ decode 0x00000021 = .ok .chkNext := ⟨rfl, rfl⟩

theorem witness_IdleStepKeepsTheState : (loaded 0 digits).pending = [] := rfl

theorem witness_IllegalWordOnlyReportsBadCommand :
    (loaded 0 digits).status.busy = false ∧ legal 0xFFFFFFFF = false ∧ legal 0x00000103 = false := by decide

theorem witness_EveryCommandWordCompletes : (loaded 0 digits).status.busy = false := rfl

/-- A success, a raise, and a command that writes no OBUF. -/
theorem witness_CommandsWriteOnlyTheirRow :
    exec .crcInit busyHost = .next (after .crcInit busyHost) ∧ Reg.src ∉ commandWrites .crcInit ∧
    exec .typeChk busyHost = .next (after .typeChk busyHost) ∧
    (after .typeChk busyHost).status = Status.failure .invalidByte ∧
    Reg.result ∉ commandWritesBeforeRaise .typeChk .invalidByte ∧
    Instr.typeChk ∉ ([.stBe32, .copy, .sigWr, .chkEmit] : List Instr) :=
  ⟨rfl, by decide, rfl, by decide +kernel, by decide, by decide⟩

theorem witness_ErrorsArePrecise :
    exec .ldBe32 { busyHost with src := 253 } = .next (after .ldBe32 { busyHost with src := 253 }) ∧
    (after .ldBe32 { busyHost with src := 253 }).status.err = true ∧
    Reg.result ∉ commandWritesBeforeRaise .ldBe32 .bufferBounds := ⟨rfl, by decide +kernel, by decide⟩

theorem witness_CommandsRaiseOnlyTheirKinds :
    exec .nop busyHost = .next (after .nop busyHost) ∧ (after .nop busyHost).status.err = false ∧
    exec .copy { busyHost with src := 257 } = .next (after .copy { busyHost with src := 257 }) ∧
    (after .copy { busyHost with src := 257 }).status = Status.failure .bufferBounds :=
  ⟨rfl, by decide +kernel, rfl, by decide +kernel⟩

theorem witness_CommandsNeverReadObuf : exec .stBe32 busyHost = .next (after .stBe32 busyHost) := rfl

/-- The last range that exists, the first that does not, PNG_PARSE's of both kinds, and the empty range at the end. -/
theorem witness_BufferBoundsExactlyOnAbsentRanges :
    rangesExist { busyHost with src := 252 } .ldBe32 ∧ ¬ rangesExist { busyHost with src := 253 } .ldBe32 ∧
    rangesExist { busyHost with ibufLen := 256 } .pngParse ∧ ¬ rangesExist { busyHost with ibufLen := 257 } .pngParse ∧
    ({ busyHost with src := 256, optr := 256 } : State).src.toNat = busyHost.params.ibufSize.bytes ∧
    ({ busyHost with src := 256, optr := 256 } : State).optr.toNat = busyHost.params.obufSize.bytes ∧
    busyHost.cnt = 0 := by
  unfold rangesExist
  decide +kernel

theorem witness_CrcBufFeedsTheRange :
    4 + 5 = ({ loaded 0 digits with src := 247, cnt := 9 } : State).cnt.toNat ∧ 0 + 9 = (9 : Word).toNat ∧
    ({ loaded 0 digits with src := 247, cnt := 9 } : State).src.toNat + 9 ≤ (loaded 0 digits).params.ibufSize.bytes := by
  decide

theorem witness_CrcW32FeedsValBigEndian : (loaded 0 digits).val = 0 ∧ (loaded 0 digits).crcState = 0xFFFFFFFF := ⟨rfl, rfl⟩

theorem witness_OneByteChangeChangesTheCrc : (0x00 : Byte) ≠ 0x80 := by decide

/-- The ends of R89's byte ranges, as the first byte of VAL. -/
theorem witness_TypeChkReportsTheFirstBadByte :
    ([0x40, 0x5B, 0x60, 0x7B, 0xC1, 0xDA, 0xE1, 0xFA] : List Byte).map (fun b =>
      (after .typeChk { busyHost with val := be32 ⟨b, 0x45, 0x4E, 0x44⟩ }).errInfo) =
    [0x40, 0x5B, 0x60, 0x7B, 0xC1, 0xDA, 0xE1, 0xFA] ∧ busyHost.val = 0 ∧
    (after .typeChk { busyHost with val := 0x49454E44 }).typeFlags = 0x27 := by decide +kernel

/-- A byte that is no letter. -/
theorem witness_LettersAreTheAsciiRanges : isAlpha 0x40 = false ∧ isAlpha 0xC1 = false := by decide

theorem witness_CaseIsBitFiveOfALetter :
    isAlpha 0x41 = true ∧ isAlpha 0x5A = true ∧ isAlpha 0x61 = true ∧ isAlpha 0x7A = true ∧
    isAlpha 0x40 = false ∧ isAlpha 0x5B = false ∧ isAlpha 0x60 = false ∧ isAlpha 0x7B = false := by decide

theorem witness_StBe32WritesABigEndianField :
    ({ busyHost with optr := 252 } : State).optr.toNat + 4 ≤ busyHost.params.obufSize.bytes ∧
    busyHost.params.obufSize.bytes < ({ busyHost with optr := 253 } : State).optr.toNat + 4 := by decide

theorem witness_CopyMovesTheRange :
    ({ busyHost with src := 253, cnt := 3, optr := 253 } : State).src.toNat + 3 ≤ busyHost.params.ibufSize.bytes ∧
    ({ busyHost with src := 253, cnt := 3, optr := 253 } : State).optr.toNat + 3 ≤ busyHost.params.obufSize.bytes ∧
    busyHost.params.ibufSize.bytes < ({ busyHost with src := 254 } : State).src.toNat + 3 ∧
    busyHost.params.obufSize.bytes < ({ busyHost with optr := 254 } : State).optr.toNat + 3 := by decide

/-- One input for each of CHK_PARSE's five errors: 257 bytes, 11 bytes, a tag with 0x31, a wrong CRC (V-CHK-10), and a
declared length of 1 on a chunk without data. -/
theorem witness_ChkParseChecksTagThenCrcThenLength :
    [{ loaded 0 rust54 with cnt := 257 }, { loaded 0 rust54 with src := 245, cnt := 11 },
      { loaded 0 ([0, 0, 0, 0, 0x31] ++ iend12.drop 5) with cnt := 12 }, { loaded 0 (iend12.take 11 ++ [0]) with cnt := 12 },
      { loaded 0 ([0, 0, 0, 1] ++ iend12.drop 4) with cnt := 12 }].map (fun s => (after .chkParse s).reg .status) =
    [0x96, 0x76, 0x16, 0x36, 0x46] := by decide +kernel

/-- The last output range that fits, the first that does not, an input range that does not exist, a bad tag, a good one. -/
theorem witness_ChkEmitSerializesTheChunk :
    ({ busyHost with optr := 244 } : State).optr.toNat + (12 + busyHost.cnt.toNat) ≤ busyHost.params.obufSize.bytes ∧
    busyHost.params.obufSize.bytes < ({ busyHost with optr := 245 } : State).optr.toNat + (12 + busyHost.cnt.toNat) ∧
    busyHost.params.ibufSize.bytes < ({ busyHost with src := 257 } : State).src.toNat + busyHost.cnt.toNat ∧
    firstBadByte (be32bytes 0x52753174) = some 0x31 ∧ firstBadByte (be32bytes 0x49454E44) = none := by decide +kernel

/-- An empty chunk emitted at the end of OBUF, and found by CHK_PARSE at the end of IBUF. -/
theorem witness_EmittedChunkParsesBack :
    let s : State := { loaded 0 [] with val := 0x49454E44, optr := 244 }
    let u : State := { loaded 244 iend12 with src := 244, cnt := 12 }
    exec .chkEmit s = .next (after .chkEmit s) ∧ (after .chkEmit s).status.err = false ∧
    (∀ i, i < 12 + s.cnt.toNat → u.ibufByte (244 + i) = (after .chkEmit s).obufByte (s.optr.toNat + i)) ∧
    244 + (12 + s.cnt.toNat) ≤ u.params.ibufSize.bytes ∧ u.src.toNat = 244 ∧ u.cnt.toNat = 12 + s.cnt.toNat :=
  ⟨rfl, by decide +kernel, by decide +kernel, by decide +kernel, by decide +kernel, by decide +kernel⟩

theorem witness_ParsedChunkEmitsBack :
    let s : State := { loaded 0 iend12 with cnt := 12 }
    exec .chkParse s = .next (after .chkParse s) ∧ (after .chkParse s).status.err = false ∧
    (244 : Word).toNat + s.cnt.toNat ≤ s.params.obufSize.bytes := ⟨exec_after _ _, by decide +kernel, by decide +kernel⟩

/-- The first type byte, changed to a byte that is a letter and to one that is not, and the last data byte. -/
theorem witness_OneByteMutationIsCaught :
    let s : State := { loaded 0 rust54 with cnt := 54 }
    exec .chkParse s = .next (after .chkParse s) ∧ (after .chkParse s).status.err = false ∧
    49 + 4 < s.cnt.toNat ∧ (0x00 : Byte) ≠ s.ibufByte (s.src.toNat + 49) ∧
    (0x72 : Byte) ≠ s.ibufByte (s.src.toNat + 4) ∧ isAlpha 0x72 = true ∧
    (0x31 : Byte) ≠ s.ibufByte (s.src.toNat + 4) ∧ isAlpha 0x31 = false :=
  ⟨exec_after _ _, by decide +kernel, by decide +kernel, by decide +kernel, by decide +kernel, by decide, by decide +kernel,
    by decide⟩

/-- An input longer than IBUF; the last signature byte missing, then wrong; the whole signature. -/
theorem witness_SigChkComparesTheSignature :
    busyHost.params.ibufSize.bytes < ({ busyHost with ibufLen := 257 } : State).ibufLen.toNat ∧
    (∀ i, i < 7 → i < 7 ∧ (loaded 0 sig).ibufByte i = sigByte i) ∧
    (loaded 0 (sig.take 7 ++ [0])).ibufByte 7 ≠ sigByte 7 ∧
    (∀ i, i < 8 → i < 8 ∧ (loaded 0 sig).ibufByte i = sigByte i) := by decide +kernel

theorem witness_SigWrEmitsTheSignature :
    ({ busyHost with optr := 248 } : State).optr.toNat + 8 ≤ busyHost.params.obufSize.bytes ∧
    busyHost.params.obufSize.bytes < ({ busyHost with optr := 249 } : State).optr.toNat + 8 := by decide

/-- One input for each of CHK_NEXT's cases: IBUF_LEN past IBUF, CURSOR past IBUF_LEN, the end, 11 bytes left, one byte
less than declared, a bad tag, a wrong CRC, a good chunk. -/
theorem witness_ChkNextParsesTheChunkAtTheCursor :
    [{ loaded 0 iend12 with ibufLen := 257 }, { loaded 0 iend12 with ibufLen := 12, cursor := 13 },
      { loaded 0 iend12 with ibufLen := 12, cursor := 12 }, { loaded 0 iend12 with ibufLen := 11 },
      { loaded 0 rust54 with ibufLen := 53 }, { loaded 0 ([0, 0, 0, 0, 0x31] ++ iend12.drop 5) with ibufLen := 12 },
      { loaded 0 (iend12.take 11 ++ [0]) with ibufLen := 12 }, { loaded 0 iend12 with ibufLen := 12 }].map
        (fun s => (after .chkNext s).reg .status) =
    [0x96, 0x96, 0x0A, 0x76, 0x76, 0x16, 0x36, 0x02] := by decide +kernel

/-- A signature and IEND, cut or with one byte changed. -/
def container (n : Nat) (change : Nat × Byte) : State :=
  { loaded 0 (sig ++ iend12) with ibufLen := toWord n, ibuf := Memory.store (loaded 0 (sig ++ iend12)).ibuf change.1 change.2 }

/-- No good chunk before a truncated one, a bad tag and a wrong CRC; one good chunk before the end. -/
theorem witness_PngParseWalksTheContainer :
    257 > busyHost.params.ibufSize.bytes ∧
    (∀ i, i < 8 → i < 8 ∧ (container 20 (19, 0x82)).ibufByte i = sigByte i) ∧
    (container 20 (7, 0x00)).ibufByte 7 ≠ sigByte 7 ∧
    goodChunks (container 20 (19, 0x82)) 20 8 1 20 ∧
    (goodChunks (container 19 (19, 0x82)) 19 8 0 8 ∧ ¬ framed (container 19 (19, 0x82)) 19 8) ∧
    (framed (container 20 (12, 0x31)) 20 8 ∧
      firstBadByte (memRead4 (container 20 (12, 0x31)) 12) = some 0x31) ∧
    framed (container 20 (19, 0x00)) 20 8 ∧ firstBadByte (memRead4 (container 20 (19, 0x00)) 12) = none ∧
      ¬ crcMatches (container 20 (19, 0x00)) 8 := by
  unfold goodChunks goodChunks
  decide +kernel

theorem witness_HostWalkEndsWherePngParseEnds :
    (container 20 (19, 0x82)).ibufLen.toNat ≤ (container 20 (19, 0x82)).params.ibufSize.bytes ∧
    (hostWalk 21 (container 20 (19, 0x82))).map (fun p => (p.1.status, p.2)) = some (Status.success true, 1) ∧
    (hostWalk 21 (container 20 (19, 0x00))).map (fun p => (p.1.status, p.2)) =
      some (Status.failure .crcMismatch, 0) ∧
    (hostWalk 258 { container 20 (19, 0x82) with ibufLen := 257, chunkCount := 5 }).map
      (fun p => (p.1.status, p.1.chunkCount, p.2)) = some (Status.failure .bufferBounds, 5, 0) := by decide +kernel

/-- Two emissions: an empty IEND, and a RuSt chunk of one byte after the host has changed IBUF. -/
def emissions : List Emission :=
  [⟨[], ⟨0x49, 0x45, 0x4E, 0x44⟩, 0, 0⟩, ⟨[(3, 0x41)], ⟨0x52, 0x75, 0x53, 0x74⟩, 3, 1⟩]

/-- The state after begin_png and the two emissions. -/
def built : State := (emitAll emissions (after .sigWr { loaded 0 digits with optr := 0 })).getD State.reset

theorem witness_BuiltContainerParsesBack :
    let u : State := { loaded 0 ((List.range 33).map built.obufByte) with ibufLen := 33 }
    exec .sigWr { loaded 0 digits with optr := 0 } = .next (after .sigWr { loaded 0 digits with optr := 0 }) ∧
    (after .sigWr { loaded 0 digits with optr := 0 }).status.err = false ∧
    emitAll emissions (after .sigWr { loaded 0 digits with optr := 0 }) = some built ∧
    (∀ x, x < built.optr.toNat → u.ibufByte x = built.obufByte x) ∧ u.ibufLen = built.optr ∧
    built.optr.toNat ≤ u.params.ibufSize.bytes :=
  ⟨rfl, by decide +kernel, by decide +kernel, by decide +kernel, by decide +kernel, by decide +kernel⟩

/-- The host has copied the container to IBUF, and both buffers have room for its 33 bytes. -/
theorem witness_ReEmittedContainerHasTheSameBytes :
    let u : State := loaded 0 ((List.range 33).map built.obufByte)
    (∀ x, x < built.optr.toNat → u.ibufByte x = built.obufByte x) ∧ built.optr.toNat = 33 ∧
    built.optr.toNat ≤ u.params.ibufSize.bytes ∧ built.optr.toNat ≤ u.params.obufSize.bytes :=
  ⟨by decide +kernel, by decide +kernel, by decide +kernel, by decide +kernel⟩

/-- Bytes from IBUF_LEN on differ, bytes below agree. -/
theorem witness_WalkReadsOnlyTheInput :
    let s := container 20 (19, 0x82)
    let m := Memory.store s.ibuf 20 0xFF
    (∀ a, a < s.ibufLen.toNat → ({ s with ibuf := m } : State).ibufByte a = s.ibufByte a) ∧ m ≠ s.ibuf ∧
    exec .chkNext s = .next (after .chkNext s) := ⟨by decide +kernel, by decide +kernel, rfl⟩

/-- Every statement about one host access holds from an idle block. -/
theorem witness_RegisterReadsReturnTheRegister : busyHost.status.busy = false := rfl

theorem witness_UnmappedOffsetsReadZero :
    busyHost.status.busy = false ∧ (0x54 ≤ (0x54 : BitVec 8).toNat ∧ (0x54 : BitVec 8).toNat % 4 = 0) ∧
    0x54 ≤ (0xFC : BitVec 8).toNat ∧ (0xFC : BitVec 8).toNat % 4 = 0 := by decide

theorem witness_ReadOnlyRegistersIgnoreWrites :
    busyHost.status.busy = false ∧
    Reg.crcState ∉ ([.cmd, .status, .ctrl, .src, .cnt, .val, .ibufLen, .cursor, .optr] : List Reg) := by decide

theorem witness_NarrowOrMisalignedAccessIsRefused :
    busyHost.status.busy = false ∧ AccessWidth.half ≠ .word ∧ (0x0E : BitVec 8).toNat % 4 ≠ 0 := by decide

theorem witness_StatusWriteClearsOnlyDone :
    busyHost.status.busy = false ∧ busyHost.status.done = true ∧ (0x00000002 : Word).getLsbD 1 = true := by decide

theorem witness_CtrlWriteSetsTheInterruptEnable :
    busyHost.status.busy = false ∧ (0xFFFFFFFD : Word).getLsbD 1 = false ∧ (0x00000000 : Word).getLsbD 1 = false := by
  decide

theorem witness_GeneralRegistersHoldHostWrites :
    busyHost.status.busy = false ∧ Reg.optr ∈ ([.src, .cnt, .val, .ibufLen, .cursor, .optr] : List Reg) := by decide

theorem witness_BufferByteHoldsHostWrites :
    busyHost.status.busy = false ∧ (255 : Word).toNat < bufferSize .obuf busyHost ∧
    (0 : Word).toNat < bufferSize .obuf busyHost := by decide

/-- An action of each outcome: the last byte of IBUF and the first that is none. -/
theorem witness_ExactlyTheMeaningfulActionsComplete :
    busyHost.status.busy = false ∧ HostAction.meaningful busyHost (.readByte .ibuf 255) ∧
    step { busyHost with pending := [.readByte .ibuf 256] } = .fault .ibufOffsetAbsent ∧
    step { busyHost with pending := [.writeByte .obuf 256 0] } = .fault .obufOffsetAbsent :=
  ⟨rfl, by unfold HostAction.meaningful; decide, rfl, rfl⟩

theorem witness_AccessWhileBusyIsRefused :
    (issue 0 busyHost).status.busy = true ∧ HostAction.readReg .word 0x00 ≠ .powerOnReset ∧
    (∀ width, HostAction.readReg .word 0x00 ≠ .readReg width 0x04) :=
  ⟨rfl, by decide, fun width h => absurd (HostAction.readReg.inj h).2 (by decide)⟩

theorem witness_StepsKeepTheParameters :
    (∃ t, step busyHost = .next t) ∧ ∃ t, step { busyHost with pending := [.powerOnReset] } = .next t :=
  ⟨⟨_, rfl⟩, _, rfl⟩

theorem witness_PseudoInstructionsExpandToTheirCommands :
    (loaded 0 digits).status.busy = false ∧
    (247 : Word).toNat + (9 : Word).toNat ≤ (loaded 0 digits).params.ibufSize.bytes := by decide

end Sys2Proof.Tests
end

section
/-! PROOFS. The statements of 00_scope.md: the two byte-order functions of R10. -/

namespace Sys2Proof.Machine

/-- As a number, appending puts the first vector above all bits of the second. -/
theorem toNat_append_eq_mul_add {m n : Nat} (x : BitVec m) (y : BitVec n) :
    (x ++ y).toNat = x.toNat * 2 ^ n + y.toNat := by
  rw [BitVec.toNat_append, ← Nat.shiftLeft_add_eq_or_of_lt y.isLt, Nat.shiftLeft_eq]

/-- R10: the place values of the four bytes. -/
theorem be32_toNat (q : Quad) :
    (be32 q).toNat = q.b0.toNat * 2 ^ 24 + q.b1.toNat * 2 ^ 16 + q.b2.toNat * 2 ^ 8 + q.b3.toNat := by
  have horner : (be32 q).toNat =
      ((q.b0.toNat * 2 ^ 8 + q.b1.toNat) * 2 ^ 8 + q.b2.toNat) * 2 ^ 8 + q.b3.toNat := by
    simp only [be32, toNat_append_eq_mul_add]
  rw [horner]
  ring

/-- Settles O29: the bytes of be32bytes are its definition, the inverses are the model's byte-order laws, and the place
values come from reading the appended bytes as one number. -/
theorem bigEndianFieldsAreInverse : Obligations.BigEndianFieldsAreInverse :=
  ⟨fun _ => rfl, be32_be32bytes, be32bytes_be32, be32_toNat⟩

end Sys2Proof.Machine
end

section
/-! PROOFS. The statements of 10_state.md about the register window: the unmapped offsets (R19) and the six general
registers (R23). -/

namespace Sys2Proof.Machine

/-- An aligned 32-bit access is not refused (R18). -/
theorem windowRefusal_word_aligned {off : BitVec 8} (ha : off.toNat % 4 = 0) : windowRefusal .word off = none := by
  simp [windowRefusal, ha]

/-- An aligned 32-bit read when the block is not busy returns what the window holds at the offset (R18). -/
theorem perform_readReg_word {s : State} {off : BitVec 8} (hb : s.status.busy = false) (ha : off.toNat % 4 = 0) :
    perform (.readReg .word off) s = .next { s with lastRead := some (.word (readWindow off s)) } := by
  simp [perform, hb, windowRefusal_word_aligned ha]

/-- An aligned 32-bit write when the block is not busy writes the window at the offset (R18). -/
theorem perform_writeReg_word {s : State} {off : BitVec 8} (hb : s.status.busy = false) (ha : off.toNat % 4 = 0)
    (v : Word) : perform (.writeReg .word off v) s = writeWindow off v s := by
  simp [perform, hb, windowRefusal_word_aligned ha]

/-- The window reads 0 beyond the last register (R19). -/
theorem readWindow_unmapped {off : BitVec 8} (h : 0x54 ≤ off.toNat) (s : State) : readWindow off s = 0 := by
  simp [readWindow, atOffset_unmapped h]

/-- The window ignores a write beyond the last register (R19). -/
theorem writeWindow_unmapped {off : BitVec 8} (h : 0x54 ≤ off.toNat) (v : Word) (s : State) :
    writeWindow off v s = .next s := by
  simp [writeWindow, atOffset_unmapped h]

/-- Settles O48: an aligned word access reaches the window, which holds nothing beyond the last register. -/
theorem unmappedOffsetsReadZero : Obligations.UnmappedOffsetsReadZero := by
  intro s off v rest hb hoff ha
  constructor
  · rw [step_cons, perform_readReg_word (s := { s with pending := rest }) hb ha, readWindow_unmapped hoff]
  · rw [step_cons, perform_writeReg_word (s := { s with pending := rest }) hb ha, writeWindow_unmapped hoff]

/-- A write to one of the six general registers goes on, sets that register and no other, and leaves both buffers and
the pending actions alone (R23). -/
theorem writeRegister_general {r : Reg} (hr : r ∈ ([.src, .cnt, .val, .ibufLen, .cursor, .optr] : List Reg))
    (v : Word) (s : State) :
    ∃ t, writeRegister r v s = .next t ∧ t.status = s.status ∧ t.pending = s.pending ∧
      (∀ r', t.reg r' = if r' = r then v else s.reg r') ∧ ∀ b a, t.bufferByte b a = s.bufferByte b a := by
  simp only [List.mem_cons, List.not_mem_nil, or_false] at hr
  rcases hr with rfl | rfl | rfl | rfl | rfl | rfl <;>
    exact ⟨_, rfl, rfl, rfl, fun r' => by cases r' <;> rfl, fun _ _ => rfl⟩

/-- Settles O53: the write sets the register alone, and STATUS is kept, so the next read is not refused and returns the
written value. -/
theorem generalRegistersHoldHostWrites : Obligations.GeneralRegistersHoldHostWrites := by
  intro s r v rest hb hr
  obtain ⟨t, hwrite, hstatus, hpending, hreg, hbyte⟩ := writeRegister_general hr v { s with pending := rest }
  have hbusy : t.status.busy = false := hstatus ▸ hb
  have hread : t.reg r = v := by rw [hreg, if_pos rfl]
  refine ⟨t, (step_wr hb r v rest).trans hwrite, hpending, hreg, hbyte, ?_⟩
  rw [step_rd hbusy, hread]

end Sys2Proof.Machine
end

section
/-! PROOFS. The statements of 30_encoding.md: the legal command words (R68). -/

namespace Sys2Proof.Machine

/-- A word selects some command exactly when its three fields are legal (R68). -/
theorem exists_decode_eq_ok {w : Word} :
    (∃ i, decode w = .ok i) ↔ rsvOf w = 0 ∧ opcOf w ∈ assignedOpcodes ∧ (opcOf w = 0x02 ∨ immOf w = 0) := by
  rw [← commandOf_isSome (opcOf w) (immOf w)]
  simp only [decode_eq_ok, exists_and_left, exists_and_right]

/-- A decoded command's word is the word it was decoded from (R67). -/
theorem encode_of_decode {w : Word} {i : Instr} (h : decode w = .ok i) : encode i = w := by
  obtain ⟨hrsv, hcommand, himm⟩ := decode_eq_ok.1 h
  rw [← fields_of_commandOf hcommand himm, ← word_of_fields hrsv]

/-- Issuing an illegal word changes CMD, STATUS and ERR_INFO alone (R75). -/
theorem badCommand_eq_failed (w : Word) (s : State) : badCommand w s = failed w .badCommand w s := rfl

/-- Settles O6: what decode accepts is R68 field by field, the decoded command's word is w itself, and a word that is
not decoded is issued as BadCommand. -/
theorem decodeAcceptsExactlyTheLegalWords : Obligations.DecodeAcceptsExactlyTheLegalWords := by
  intro w
  refine ⟨exists_decode_eq_ok, fun i h => by rw [encode_of_decode h], ?_⟩
  cases h : decode w with
  | ok i => exact .inl ⟨i, rfl⟩
  | error e => exact .inr ⟨e, rfl, fun s => by rw [issueWord_of_error h, badCommand_eq_failed]⟩

end Sys2Proof.Machine
end

section
/-! PROOFS. The statements of 40_command_cycle.md about commands that do nothing but report: an illegal word (R75) and
NOP (R76). -/

namespace Sys2Proof.Machine

/-- The words that select a command are the legal ones (R68). -/
theorem exists_decode_eq_ok_iff_legal {w : Word} : (∃ i, decode w = .ok i) ↔ legal w = true := by
  simp only [exists_decode_eq_ok, legal, Bool.and_eq_true, Bool.or_eq_true, beq_iff_eq, List.contains_iff_mem,
    and_assoc]

/-- An illegal word is rejected by the decoder (R68, R69). -/
theorem exists_decode_eq_error {w : Word} (h : legal w = false) : ∃ e, decode w = .error e := by
  cases hd : decode w with
  | error e => exact ⟨e, rfl⟩
  | ok i =>
    have hlegal : legal w = true := exists_decode_eq_ok_iff_legal.1 ⟨i, hd⟩
    exact absurd (hlegal.symm.trans h) Bool.noConfusion

/-- Issuing an illegal word reports BadCommand with the word as its value (R75). -/
theorem issueWord_of_illegal {w : Word} (h : legal w = false) (s : State) :
    issueWord w s = .next (failed w .badCommand w s) := by
  obtain ⟨e, he⟩ := exists_decode_eq_error h
  rw [issueWord_of_error he, badCommand_eq_failed]

/-- Settles O10: the write reaches CMD, the decoder rejects the word, and what is left is BadCommand's record; the
corner words are computed. -/
theorem illegalWordOnlyReportsBadCommand : Obligations.IllegalWordOnlyReportsBadCommand := by
  refine ⟨fun s w rest hb hw => ?_, by decide, by decide, rfl, by decide⟩
  calc step { s with pending := wr .cmd w :: rest }
      _ = issueWord w { s with pending := rest } := step_wr hb .cmd w rest
      _ = .next (failed w .badCommand w { s with pending := rest }) := issueWord_of_illegal hw _

/-- NOP is the command cycle alone: its rule returns the issued state, and completion is a success (R73, R76). -/
theorem exec_nop_eq_succeeded (s : State) : exec .nop s = .next (succeeded (encode .nop) s) := by
  have hfinish : (ruleOf .nop (issue (encode .nop) s)).finish = succeeded (encode .nop) s :=
    finish_done (encode .nop) s (issue (encode .nop) s) rfl
  rw [exec_eq, hfinish]

/-- Settles O13: NOP's word is 0, and STATUS reads as DONE alone. -/
theorem nopOnlyClearsTheRecord : Obligations.NopOnlyClearsTheRecord :=
  fun s => ⟨exec_nop_eq_succeeded s, by decide⟩

end Sys2Proof.Machine
end

section
/-! PROOFS. The statements of 41_crc.md about the four CRC commands: CRC_INIT (R81), CRC_BYTE (R82), CRC_BUF (R83) and
CRC_W32 (R84). -/

namespace Sys2Proof.Machine

/-- A command whose rule returns the issue of `u` succeeds with `u` (R73, R74). -/
theorem exec_of_rule_done {i : Instr} {s u : State}
    (h : ruleOf i (issue (encode i) s) = .done (issue (encode i) u)) :
    exec i s = .next (succeeded (encode i) u) := by
  have hfinish : (Effect.done (issue (encode i) u)).finish = succeeded (encode i) u :=
    finish_done (encode i) u (issue (encode i) u) rfl
  rw [exec_eq, h, hfinish]

/-- A command whose rule raises from the issue of `u` fails with `u` (R73, R107). -/
theorem exec_of_rule_raise {i : Instr} {s u : State} {k : ErrorKind} {info : Word}
    (h : ruleOf i (issue (encode i) s) = .raise k info (issue (encode i) u)) :
    exec i s = .next (failed (encode i) k info u) := by
  have hfinish : (Effect.raise k info (issue (encode i) u)).finish = failed (encode i) k info u :=
    finish_raise (encode i) u (issue (encode i) u) k info rfl
  rw [exec_eq, h, hfinish]

/-- CRC_INIT succeeds and sets CRC_STATE alone (R81). -/
theorem exec_crcInit_eq_succeeded (s : State) :
    exec .crcInit s = .next (succeeded (encode .crcInit) { s with crcState := 0xFFFFFFFF }) :=
  exec_of_rule_done rfl

/-- CRC_BYTE succeeds and steps CRC_STATE by its immediate (R82). -/
theorem exec_crcByte_eq_succeeded (b : Byte) (s : State) :
    exec (.crcByte b) s =
      .next (succeeded (encode (.crcByte b)) { s with crcState := crcStep s.crcState b }) :=
  exec_of_rule_done rfl

/-- CRC_W32 succeeds and feeds the bytes of VAL to CRC_STATE (R84). -/
theorem exec_crcW32_eq_succeeded (s : State) :
    exec .crcW32 s =
      .next (succeeded (encode .crcW32) { s with crcState := crcFeed s.crcState (be32bytes s.val).toList }) :=
  exec_of_rule_done rfl

/-- CRC_BUF on a range that exists succeeds and feeds the range to CRC_STATE (R83). -/
theorem exec_crcBuf_of_inI {s : State} (h : inI s s.src.toNat s.cnt.toNat) :
    exec .crcBuf s = .next (succeeded (encode .crcBuf)
      { s with crcState := crcFeed s.crcState (memRead s s.src.toNat s.cnt.toNat) }) :=
  exec_of_rule_done (ruleCrcBuf_done (s := issue (encode .crcBuf) s) h)

/-- CRC_BUF on a range that does not exist raises BufferBounds(0) and keeps CRC_STATE (R83). -/
theorem exec_crcBuf_of_not_inI {s : State} (h : ¬ inI s s.src.toNat s.cnt.toNat) :
    exec .crcBuf s = .next (failed (encode .crcBuf) .bufferBounds 0 s) :=
  exec_of_rule_raise (ruleCrcBuf_bounds (s := issue (encode .crcBuf) s) h)

/-- Feeding a range is feeding its first part and then the rest (R83). -/
theorem crcFeed_memRead_add (s : State) (a m n : Nat) (c : Word) :
    crcFeed c (memRead s a (m + n)) = crcFeed (crcFeed c (memRead s a m)) (memRead s (a + m) n) := by
  rw [memRead_add, crcFeed_append]

/-- Settles O20: the bounds check decides between the two ends of CRC_BUF; both parts of a range that exists have their
bounds in IBUF, so SRC and CNT hold them exactly, and the CRC of the range is the feed of one part after the other. -/
theorem crcBufFeedsTheRange : Obligations.CrcBufFeedsTheRange := by
  refine ⟨fun s => ?_, fun s n₁ n₂ hsum hfits => ?_⟩
  · intro fed
    have hfed : fed = crcFeed s.crcState (memRead s s.src.toNat s.cnt.toNat) := (crcFeed_memRead ..).symm
    by_cases h : s.src.toNat + s.cnt.toNat ≤ s.params.ibufSize.bytes
    · rw [if_pos h, hfed]
      exact exec_crcBuf_of_inI h
    · rw [if_neg h]
      exact exec_crcBuf_of_not_inI h
  · have hn₁ : (toWord n₁).toNat = n₁ := ibuf_toNat (p := s.params) (by omega)
    have hn₂ : (toWord n₂).toNat = n₂ := ibuf_toNat (p := s.params) (by omega)
    have hsrc : (toWord (s.src.toNat + n₁)).toNat = s.src.toNat + n₁ := ibuf_toNat (p := s.params) (by omega)
    have hfirst : s.src.toNat + (toWord n₁).toNat ≤ s.params.ibufSize.bytes := by omega
    have hsecond : (toWord (s.src.toNat + n₁)).toNat + (toWord n₂).toNat ≤ s.params.ibufSize.bytes := by omega
    refine ⟨_, _, _, exec_crcBuf_of_inI hfirst, exec_crcBuf_of_inI hsecond, exec_crcBuf_of_inI hfits, ?_, rfl, ?_⟩
    · calc crcFeed (crcFeed s.crcState (memRead s s.src.toNat (toWord n₁).toNat))
              (memRead s (toWord (s.src.toNat + n₁)).toNat (toWord n₂).toNat)
          _ = crcFeed (crcFeed s.crcState (memRead s s.src.toNat n₁)) (memRead s (s.src.toNat + n₁) n₂) := by
            rw [hn₁, hn₂, hsrc]
          _ = crcFeed s.crcState (memRead s s.src.toNat (n₁ + n₂)) := (crcFeed_memRead_add ..).symm
          _ = crcFeed s.crcState (memRead s s.src.toNat s.cnt.toNat) := by rw [hsum]
    · rintro rfl
      rfl

/-- Settles O18: CRC_INIT's end does not depend on CRC_STATE or on the record before, so a second one gives it again. -/
theorem crcInitStartsANewCrc : Obligations.CrcInitStartsANewCrc :=
  fun s => ⟨exec_crcInit_eq_succeeded s, BitVec.xor_self, exec_crcInit_eq_succeeded _⟩

/-- Settles O19: the word is CRC_BYTE's encoding, which is legal for every byte; the rule's values are computed. -/
theorem crcByteFeedsItsImmediate : Obligations.CrcByteFeedsItsImmediate := by
  refine ⟨fun b s => ⟨?_, exec_crcByte_eq_succeeded b s⟩, by decide, by decide, by decide⟩
  obtain ⟨hlegal, -⟩ := Laws.EncodedWord.crcByte b rfl
  exact hlegal

/-- The four zero bytes of VAL = 0 after CRC_INIT, R84's corner case. -/
theorem crcFeed_be32bytes_zero : crcFeed 0xFFFFFFFF (be32bytes 0).toList = 0xDEBB20E3 := by decide +kernel

/-- Settles O21: the bytes of VAL are those of be32bytes in order; the corner value is computed. -/
theorem crcW32FeedsValBigEndian : Obligations.CrcW32FeedsValBigEndian := by
  intro s c₁ c₂ c₃ c₄
  refine ⟨exec_crcW32_eq_succeeded s, fun hval hcrc => ?_⟩
  calc crcFeed s.crcState (be32bytes s.val).toList
      _ = crcFeed 0xFFFFFFFF (be32bytes 0).toList := by rw [hval, hcrc]
      _ = 0xDEBB20E3 := crcFeed_be32bytes_zero

end Sys2Proof.Machine
end

section
/-! PROOFS. The statements of 42_type_tag.md about every tag: the flags bit by bit (R86) and TYPE_CHK (R89). -/

namespace Sys2Proof.Machine

/-- Settles O27: bits 0 to 5 are the six packed flags, and the word is below 2^6. -/
theorem tagFlagsBitByBit : Obligations.TagFlagsBitByBit := by
  intro t j
  obtain ⟨hlt, hcritical, hpublic, hreserved, hsafe, hvalid, halpha⟩ :=
    sixFlags_getLsbD (isAlpha t.b0 && isAlpha t.b1 && isAlpha t.b2 && isAlpha t.b3)
      (isUpper t.b0 && !isUpper t.b1 && isUpper t.b2 && isLower t.b3) (isLower t.b3) (isUpper t.b2) (isUpper t.b1)
      (isUpper t.b0)
  match j with
  | 0 => exact hcritical
  | 1 => exact hpublic
  | 2 => exact hreserved
  | 3 => exact hsafe
  | 4 => exact hvalid
  | 5 => exact halpha
  | k + 6 =>
    have hpow : 2 ^ 6 ≤ 2 ^ (k + 6) := Nat.pow_le_pow_right Nat.two_pos (Nat.le_add_left 6 k)
    exact Nat.testBit_lt_two_pow (hlt.trans_le hpow)

/-- TYPE_CHK on a tag of four letters succeeds and sets TYPE_FLAGS alone (R89). -/
theorem exec_typeChk_eq_succeeded {s : State} {f : Word} (hflags : tagFlags (be32bytes s.val) = f)
    (hbad : firstBadByte (be32bytes s.val) = none) :
    exec .typeChk s = .next (succeeded (encode .typeChk) { s with typeFlags := f }) := by
  subst hflags
  refine exec_of_rule_done ?_
  rw [ruleOf, ruleTypeChk, checkTag_eq, valBytes, issue_val, hbad]
  rfl

/-- TYPE_CHK on any other tag sets TYPE_FLAGS and raises InvalidByte of the first byte that is no letter (R89). -/
theorem exec_typeChk_eq_failed {s : State} {f : Word} {b : Byte} (hflags : tagFlags (be32bytes s.val) = f)
    (hbad : firstBadByte (be32bytes s.val) = some b) :
    exec .typeChk s = .next (failed (encode .typeChk) .invalidByte (zext32 b) { s with typeFlags := f }) := by
  subst hflags
  refine exec_of_rule_raise ?_
  rw [ruleOf, ruleTypeChk, checkTag_eq, valBytes, issue_val, hbad]
  rfl

/-- A first byte that is no letter is the one reported, whatever the other three are (R85). -/
theorem firstBadByte_of_b0 {t : Quad} (h : isAlpha t.b0 = false) : firstBadByte t = some t.b0 :=
  List.find?_cons_of_pos (by rw [h]; rfl)

/-- The letters as number ranges (R13). -/
theorem isAlpha_eq_true_iff (b : Byte) :
    isAlpha b = true ↔ (0x41 ≤ b.toNat ∧ b.toNat ≤ 0x5A) ∨ (0x61 ≤ b.toNat ∧ b.toNat ≤ 0x7A) := by
  simp [isAlpha, BitVec.le_def]

/-- R89's corner bytes, just outside a letter range or a letter with bit 7 set, are no letters. -/
theorem isAlpha_eq_false_of_corner {b : Byte}
    (h : b ∈ ([0x40, 0x5B, 0x60, 0x7B] : List Byte) ∨ (0xC1 ≤ b.toNat ∧ b.toNat ≤ 0xDA) ∨
      (0xE1 ≤ b.toNat ∧ b.toNat ≤ 0xFA)) : isAlpha b = false := by
  rcases h with hmem | hrange
  · revert b
    decide
  · rw [← Bool.not_eq_true, isAlpha_eq_true_iff]
    omega

/-- Settles O26: TYPE_CHK's two ends, by whether some byte of VAL is no letter; a corner byte in front is that byte, and
the flags and the first bad byte of the named tags are computed. -/
theorem typeChkReportsTheFirstBadByte : Obligations.TypeChkReportsTheFirstBadByte := by
  intro s
  refine ⟨?_, fun hval => ?_, fun b hb hcorner => ?_, fun hval => ?_, fun hval => ?_, fun hval => ?_⟩
  · split
    next b hbad => exact exec_typeChk_eq_failed rfl hbad
    next hbad => exact exec_typeChk_eq_succeeded rfl hbad
  · exact exec_typeChk_eq_failed (b := 0) (by rw [hval]; decide) (by rw [hval]; decide)
  · subst hb
    have hb0 : isAlpha (be32bytes s.val).b0 = false := isAlpha_eq_false_of_corner hcorner
    exact exec_typeChk_eq_failed rfl (firstBadByte_of_b0 hb0)
  · exact exec_typeChk_eq_succeeded (by rw [hval]; decide) (by rw [hval]; decide)
  · exact exec_typeChk_eq_succeeded (by rw [hval]; decide) (by rw [hval]; decide)
  · exact exec_typeChk_eq_succeeded (by rw [hval]; decide) (by rw [hval]; decide)

end Sys2Proof.Machine
end

section
/-! PROOFS. The statements of 43_chunk.md: the field commands LD_BE32 (R92) and ST_BE32 (R93), COPY (R94), CHK_PARSE with
the slice parser (R95, R91) and CHK_EMIT (R96). Each command first gets one lemma per outcome, an equation on the whole
state; a settled statement picks among them and reads the bytes that were stored. -/

namespace Sys2Proof.Machine

/-! ### LD_BE32 (R92) -/

/-- LD_BE32 on four bytes that exist succeeds and sets RESULT alone (R92). -/
theorem exec_ldBe32_of_inI {s : State} (h : inI s s.src.toNat 4) :
    exec .ldBe32 s = .next (succeeded (encode .ldBe32) { s with result := be32 (memRead4 s s.src.toNat) }) :=
  exec_of_rule_done (ruleLdBe32_done (s := issue (encode .ldBe32) s) h)

/-- LD_BE32 on a range that does not exist raises BufferBounds(0) and keeps RESULT (R92). -/
theorem exec_ldBe32_of_not_inI {s : State} (h : ¬ inI s s.src.toNat 4) :
    exec .ldBe32 s = .next (failed (encode .ldBe32) .bufferBounds 0 s) :=
  exec_of_rule_raise (ruleLdBe32_bounds (s := issue (encode .ldBe32) s) h)

/-- Settles O31: the bounds check decides between the two ends; be32 of the four bytes is the bytes appended. -/
theorem ldBe32ReadsABigEndianField : Obligations.LdBe32ReadsABigEndianField := by
  intro s a field
  split
  next hin => exact exec_ldBe32_of_inI hin
  next hout => exact exec_ldBe32_of_not_inI hout

/-! ### ST_BE32 (R93) -/

/-- ST_BE32 on four bytes that exist succeeds, writes VAL at OPTR and advances OPTR (R93). -/
theorem exec_stBe32_of_inO {s : State} (h : inO s s.optr.toNat 4) :
    exec .stBe32 s = .next (succeeded (encode .stBe32)
      { memWrite s s.optr.toNat (be32bytes s.val).toList with optr := toWord (s.optr.toNat + 4) }) :=
  exec_of_rule_done (ruleStBe32_done (s := issue (encode .stBe32) s) h)

/-- ST_BE32 on a range that does not exist raises BufferBounds(0) and writes nothing (R93). -/
theorem exec_stBe32_of_not_inO {s : State} (h : ¬ inO s s.optr.toNat 4) :
    exec .stBe32 s = .next (failed (encode .stBe32) .bufferBounds 0 s) :=
  exec_of_rule_raise (ruleStBe32_bounds (s := issue (encode .stBe32) s) h)

/-- Settles O32: OBUF after the command is one MemWrite of be32bytes(VAL), so a byte inside the range is a byte of VAL
and a byte outside is kept; a range that exists ends below 2^32, so OPTR holds its end. -/
theorem stBe32WritesABigEndianField : Obligations.StBe32WritesABigEndianField := by
  refine ⟨fun s hin => ?_, fun s hout => exec_stBe32_of_not_inO hout.not_ge⟩
  refine ⟨_, exec_stBe32_of_inO hin, rfl, optr_toNat hin, fun i => ?_, fun x hx => ?_⟩
  · exact (memWrite_obufByte_of_inside s _ (be32bytes s.val).toList i i.isLt).trans (be32bytes_getElem s.val i)
  · exact memWrite_obufByte_of_outside s hx

/-! ### COPY (R94) -/

/-- COPY between two ranges that exist succeeds, writes the input bytes at OPTR and advances OPTR (R94). -/
theorem exec_copy_of_inI_of_inO {s : State} (hI : inI s s.src.toNat s.cnt.toNat)
    (hO : inO s s.optr.toNat s.cnt.toNat) :
    exec .copy s = .next (succeeded (encode .copy)
      { memWrite s s.optr.toNat (memRead s s.src.toNat s.cnt.toNat) with
        optr := toWord (s.optr.toNat + s.cnt.toNat) }) :=
  exec_of_rule_done (ruleCopy_done (s := issue (encode .copy) s) hI hO)

/-- COPY with a range that does not exist raises BufferBounds(0) and writes nothing (R94). -/
theorem exec_copy_of_not_inI_or_not_inO {s : State}
    (h : ¬ (inI s s.src.toNat s.cnt.toNat ∧ inO s s.optr.toNat s.cnt.toNat)) :
    exec .copy s = .next (failed (encode .copy) .bufferBounds 0 s) :=
  exec_of_rule_raise (ruleCopy_bounds (s := issue (encode .copy) s) h)

/-- Settles O33: OBUF after the command is one MemWrite of the CNT bytes of MemRead, so byte i of the output range is
byte i of the input range and a byte outside is kept. -/
theorem copyMovesTheRange : Obligations.CopyMovesTheRange := by
  refine ⟨fun s hI hO => ?_, fun s hout => exec_copy_of_not_inI_or_not_inO (by omega)⟩
  refine ⟨_, exec_copy_of_inI_of_inO hI hO, rfl, optr_toNat hO, fun i hi => ?_, fun x hx => ?_⟩
  · have hlen : i < (memRead s s.src.toNat s.cnt.toNat).length := by rwa [memRead_length]
    exact (memWrite_obufByte_of_inside s _ _ i hlen).trans (memRead_getElem ..)
  · exact memWrite_obufByte_of_outside s (by rwa [memRead_length])

/-! ### The slice parser (R91), one lemma per outcome -/

section
variable {a n : Nat} {s : State}

/-- parse_slice on a tag with a byte that is no letter raises InvalidByte of the first such byte (R91). -/
theorem parseSlice_eq_invalidByte {b : Byte} (hbad : firstBadByte (memRead4 s (a + 4)) = some b) :
    parseSlice a n s = .raise .invalidByte (zext32 b) (writeParse a n s) := by
  rw [parseSlice_eq, hbad]

/-- parse_slice on a good tag checks the CRC next (R91). -/
theorem parseSlice_eq_crcMismatch (hgood : firstBadByte (memRead4 s (a + 4)) = none)
    (hcrc : (writeParse a n s).chunkCrc ≠ (writeParse a n s).calcCrc) :
    parseSlice a n s = .raise .crcMismatch (writeParse a n s).calcCrc (writeParse a n s) := by
  rw [parseSlice_eq, hgood]
  exact if_pos hcrc

/-- parse_slice on a good tag and a good CRC checks the length last (R91). -/
theorem parseSlice_eq_lengthMismatch (hgood : firstBadByte (memRead4 s (a + 4)) = none)
    (hcrc : (writeParse a n s).chunkCrc = (writeParse a n s).calcCrc) (hlen : declaredLength s a ≠ n - 12) :
    parseSlice a n s = .raise .lengthMismatch (toWord (n - 12)) (writeParse a n s) := by
  rw [parseSlice_eq, hgood]
  exact (if_neg (not_not.2 hcrc)).trans (if_pos hlen)

/-- parse_slice returns when no check fails (R91). -/
theorem parseSlice_eq_done (hgood : firstBadByte (memRead4 s (a + 4)) = none)
    (hcrc : (writeParse a n s).chunkCrc = (writeParse a n s).calcCrc) (hlen : declaredLength s a = n - 12) :
    parseSlice a n s = .done (writeParse a n s) := by
  rw [parseSlice_eq, hgood]
  exact (if_neg (not_not.2 hcrc)).trans (if_neg (not_not.2 hlen))

end

/-! ### CHK_PARSE (R95) -/

/-- CHK_PARSE on a range that does not exist raises BufferBounds(0) and writes nothing (R95). -/
theorem exec_chkParse_of_not_inI {s : State} (h : ¬ inI s s.src.toNat s.cnt.toNat) :
    exec .chkParse s = .next (failed (encode .chkParse) .bufferBounds 0 s) :=
  exec_of_rule_raise (ruleChkParse_bounds (s := issue (encode .chkParse) s) h)

/-- CHK_PARSE on fewer than 12 bytes raises Truncated of their number and writes nothing (R95). -/
theorem exec_chkParse_of_lt_twelve {s : State} (hin : inI s s.src.toNat s.cnt.toNat) (hshort : s.cnt.toNat < 12) :
    exec .chkParse s = .next (failed (encode .chkParse) .truncated (toWord s.cnt.toNat) s) :=
  exec_of_rule_raise (ruleChkParse_truncated (s := issue (encode .chkParse) s) hin hshort)

/-- CHK_PARSE on a slice of 12 bytes or more fails as parse_slice raises, with the seven registers written (R95). -/
theorem exec_chkParse_of_parseSlice_raise {s : State} {k : ErrorKind} {info : Word}
    (hin : inI s s.src.toNat s.cnt.toNat) (hlong : ¬ s.cnt.toNat < 12)
    (hslice : parseSlice s.src.toNat s.cnt.toNat (issue (encode .chkParse) s) =
      .raise k info (writeParse s.src.toNat s.cnt.toNat (issue (encode .chkParse) s))) :
    exec .chkParse s =
      .next (failed (encode .chkParse) k info (writeParse s.src.toNat s.cnt.toNat s)) :=
  exec_of_rule_raise ((ruleChkParse_slice (s := issue (encode .chkParse) s) hin hlong).trans hslice)

/-- CHK_PARSE on a slice of 12 bytes or more succeeds as parse_slice returns, with the seven registers written (R95). -/
theorem exec_chkParse_of_parseSlice_done {s : State}
    (hin : inI s s.src.toNat s.cnt.toNat) (hlong : ¬ s.cnt.toNat < 12)
    (hslice : parseSlice s.src.toNat s.cnt.toNat (issue (encode .chkParse) s) =
      .done (writeParse s.src.toNat s.cnt.toNat (issue (encode .chkParse) s))) :
    exec .chkParse s = .next (succeeded (encode .chkParse) (writeParse s.src.toNat s.cnt.toNat s)) :=
  exec_of_rule_done ((ruleChkParse_slice (s := issue (encode .chkParse) s) hin hlong).trans hslice)

/-- Settles O34: the five checks in their order; the state the last three leave is the one writeParse gives, and the
issue changes nothing that parse_slice reads. -/
theorem chkParseChecksTagThenCrcThenLength : Obligations.ChkParseChecksTagThenCrcThenLength := by
  intro s a n t u
  split
  next hout => exact exec_chkParse_of_not_inI hout.not_ge
  next hnot =>
    have hin : inI s a n := Nat.not_lt.1 hnot
    split
    next hshort => exact exec_chkParse_of_lt_twelve hin hshort
    next hlong =>
      split
      next b hbad => exact exec_chkParse_of_parseSlice_raise hin hlong (parseSlice_eq_invalidByte hbad)
      next hgood =>
        split
        next hcrc => exact exec_chkParse_of_parseSlice_raise hin hlong (parseSlice_eq_crcMismatch hgood hcrc)
        next hnotMismatch =>
          have hcrc : u.chunkCrc = u.calcCrc := not_not.1 hnotMismatch
          split
          next hlen =>
            exact exec_chkParse_of_parseSlice_raise hin hlong (parseSlice_eq_lengthMismatch hgood hcrc hlen)
          next hlen =>
            exact exec_chkParse_of_parseSlice_done hin hlong (parseSlice_eq_done hgood hcrc (not_not.1 hlen))

/-! ### CHK_EMIT (R96) -/

/-- CHK_EMIT with a range that does not exist raises BufferBounds(0) and writes nothing (R96). -/
theorem exec_chkEmit_of_not_inI_or_not_inO {s : State}
    (h : ¬ (inI s s.src.toNat s.cnt.toNat ∧ inO s s.optr.toNat (12 + s.cnt.toNat))) :
    exec .chkEmit s = .next (failed (encode .chkEmit) .bufferBounds 0 s) :=
  exec_of_rule_raise (ruleChkEmit_bounds (s := issue (encode .chkEmit) s) h)

section
variable {s : State} (hI : inI s s.src.toNat s.cnt.toNat) (hO : inO s s.optr.toNat (12 + s.cnt.toNat))
include hI hO

/-- CHK_EMIT of a tag with a byte that is no letter sets TYPE_FLAGS alone and raises InvalidByte (R96). -/
theorem exec_chkEmit_of_firstBadByte_eq_some {b : Byte} (hbad : firstBadByte (be32bytes s.val) = some b) :
    exec .chkEmit s = .next (failed (encode .chkEmit) .invalidByte (zext32 b)
      { s with typeFlags := tagFlags (be32bytes s.val) }) :=
  exec_of_rule_raise (ruleChkEmit_invalid (s := issue (encode .chkEmit) s) hI hO hbad)

/-- CHK_EMIT of a tag of four letters succeeds and writes the serialized chunk at OPTR (R96). -/
theorem exec_chkEmit_of_firstBadByte_eq_none (hgood : firstBadByte (be32bytes s.val) = none) :
    exec .chkEmit s = .next (succeeded (encode .chkEmit)
      { memWrite s s.optr.toNat (serializeChunk (be32bytes s.val) (memRead s s.src.toNat s.cnt.toNat)) with
        typeFlags := tagFlags (be32bytes s.val)
        calcCrc := crc32 ((be32bytes s.val).toList ++ memRead s s.src.toNat s.cnt.toNat)
        optr := toWord (s.optr.toNat + 12 + s.cnt.toNat) }) :=
  exec_of_rule_done (ruleChkEmit_done (s := issue (encode .chkEmit) s) hI hO hgood)

end

/-- The four parts of a chunk whose tag is VAL and whose data is an input range of CNT bytes, where MemWrite puts them
(R90, R96). -/
theorem memWrite_serializeChunk_memRead (s : State) (o a : Nat) (v cnt : Word) :
    let u := memWrite s o (serializeChunk (be32bytes v) (memRead s a cnt.toNat))
    (∀ i : Fin 4, u.obufByte (o + i) = cnt.extractLsb' (24 - 8 * i.val) 8) ∧
    (∀ i : Fin 4, u.obufByte (o + 4 + i) = v.extractLsb' (24 - 8 * i.val) 8) ∧
    (∀ i, i < cnt.toNat → u.obufByte (o + 8 + i) = s.ibufByte (a + i)) ∧
    (∀ i : Fin 4, u.obufByte (o + 8 + cnt.toNat + i) =
      (crc32 ((be32bytes v).toList ++ memRead s a cnt.toNat)).extractLsb' (24 - 8 * i.val) 8) ∧
    ∀ x, x < o ∨ o + 12 + cnt.toNat ≤ x → u.obufByte x = s.obufByte x := by
  intro u
  obtain ⟨hlength, htag, hdata, hcrc⟩ := memWrite_serializeChunk s o (be32bytes v) (memRead s a cnt.toNat)
  simp only [memRead_length, toWord_toNat, be32bytes_getElem, memRead_getElem] at hlength htag hdata hcrc
  refine ⟨hlength, htag, hdata, hcrc, fun x hx => memWrite_obufByte_of_outside s ?_⟩
  rwa [serializeChunk_length, memRead_length, ← Nat.add_assoc]

/-- Settles O35: the bounds, then the tag, decide between the three ends; OBUF after a success is one MemWrite of the
serialized chunk. -/
theorem chkEmitSerializesTheChunk : Obligations.ChkEmitSerializesTheChunk := by
  intro s t a n o c
  refine ⟨fun hout => exec_chkEmit_of_not_inI_or_not_inO (by omega), fun hI hO => ⟨fun b hbad => ?_, fun hgood => ?_⟩⟩
  · exact exec_chkEmit_of_firstBadByte_eq_some hI hO hbad
  · have hend : (toWord (o + 12 + n)).toNat = o + 12 + n := by
      rw [Nat.add_assoc]
      exact optr_toNat hO
    exact ⟨_, exec_chkEmit_of_firstBadByte_eq_none hI hO hgood, rfl, hend,
      memWrite_serializeChunk_memRead s o a s.val s.cnt⟩

end Sys2Proof.Machine
end

section
/-! PROOFS. The statements of 44_container.md about one command each: SIG_CHK (R99), SIG_WR (R100) and CHK_NEXT (R101).
Each command first gets one lemma per outcome, an equation on the whole state; a settled statement picks among them. -/

namespace Sys2Proof.Machine

/-! ### SIG_CHK (R99) -/

/-- SIG_CHK with an end of input past IBUF raises BufferBounds(0) and writes nothing (R99). -/
theorem exec_sigChk_of_size_lt {s : State} (h : s.params.ibufSize.bytes < s.ibufLen.toNat) :
    exec .sigChk s = .next (failed (encode .sigChk) .bufferBounds 0 s) :=
  exec_of_rule_raise (ruleSigChk_bounds (s := issue (encode .sigChk) s) h)

section
variable {s : State} (hin : s.ibufLen.toNat ≤ s.params.ibufSize.bytes)
include hin

/-- SIG_CHK that finds byte `k` missing or wrong resets the walk and raises BadSignature(k) (R99). -/
theorem exec_sigChk_of_sigError_eq_some {k : Nat} (hk : sigError s s.ibufLen.toNat = some k) :
    exec .sigChk s =
      .next (failed (encode .sigChk) .badSignature (toWord k) { s with cursor := 0, chunkCount := 0 }) :=
  exec_of_rule_raise (ruleSigChk_bad (s := issue (encode .sigChk) s) hin.not_gt hk)

/-- SIG_CHK that finds no such byte succeeds and sets CURSOR to the end of the signature (R99). -/
theorem exec_sigChk_of_sigError_eq_none (hnone : sigError s s.ibufLen.toNat = none) :
    exec .sigChk s = .next (succeeded (encode .sigChk) { s with cursor := 8, chunkCount := 0 }) :=
  exec_of_rule_done (ruleSigChk_done (s := issue (encode .sigChk) s) hin.not_gt hnone)

end

/-- Settles O39: after the bounds check the signature compare decides, and it finds the first byte that is missing or
wrong. -/
theorem sigChkComparesTheSignature : Obligations.SigChkComparesTheSignature := by
  refine fun s => ⟨exec_sigChk_of_size_lt, fun hin => ⟨fun k hk hbefore hbad => ?_, fun hall => ?_⟩, rfl⟩
  · exact exec_sigChk_of_sigError_eq_some hin (sigError_eq_some.2 ⟨hk, hbad, hbefore⟩)
  · exact exec_sigChk_of_sigError_eq_none hin ((sigError_eq_none s s.ibufLen.toNat).2 hall)

/-! ### SIG_WR (R100) -/

/-- SIG_WR on eight bytes that exist succeeds, writes SIG at OPTR and advances OPTR (R100). -/
theorem exec_sigWr_of_inO {s : State} (h : inO s s.optr.toNat 8) :
    exec .sigWr s = .next (succeeded (encode .sigWr)
      { memWrite s s.optr.toNat sig with optr := toWord (s.optr.toNat + 8) }) :=
  exec_of_rule_done (ruleSigWr_done (s := issue (encode .sigWr) s) h)

/-- SIG_WR on a range that does not exist raises BufferBounds(0) and writes nothing (R100). -/
theorem exec_sigWr_of_not_inO {s : State} (h : ¬ inO s s.optr.toNat 8) :
    exec .sigWr s = .next (failed (encode .sigWr) .bufferBounds 0 s) :=
  exec_of_rule_raise (ruleSigWr_bounds (s := issue (encode .sigWr) s) h)

/-- The range that MemWrite wrote reads as the sequence (R9). -/
theorem map_obufByte_memWrite (s : State) (a : Nat) (bs : List Byte) :
    (List.range bs.length).map (fun i => (memWrite s a bs).obufByte (a + i)) = bs := by
  refine List.ext_getElem (by simp) fun i _ hi => ?_
  rw [List.getElem_map, List.getElem_range]
  exact memWrite_obufByte_of_inside s a bs i hi

/-- Settles O40: OBUF after the command is one MemWrite of SIG, so its range reads as SIG and a byte outside is kept; a
range that exists ends below 2^32, so OPTR holds its end. -/
theorem sigWrEmitsTheSignature : Obligations.SigWrEmitsTheSignature := by
  refine ⟨fun s hin => ?_, fun s hout => exec_sigWr_of_not_inO hout.not_ge⟩
  exact ⟨_, exec_sigWr_of_inO hin, rfl, optr_toNat hin, map_obufByte_memWrite s s.optr.toNat sig,
    fun _ hx => memWrite_obufByte_of_outside s hx⟩

/-! ### CHK_NEXT (R101) -/

section
variable {s : State}

/-- CHK_NEXT with an end of input past IBUF, or a cursor past the end of input, raises BufferBounds(0) and writes
nothing (R101). -/
theorem exec_chkNext_of_size_lt_or_lt_cursor
    (h : s.params.ibufSize.bytes < s.ibufLen.toNat ∨ s.ibufLen.toNat < s.cursor.toNat) :
    exec .chkNext s = .next (failed (encode .chkNext) .bufferBounds 0 s) :=
  exec_of_rule_raise (ruleChkNext_bounds (s := issue (encode .chkNext) s) h)

variable (hin : ¬ (s.params.ibufSize.bytes < s.ibufLen.toNat ∨ s.ibufLen.toNat < s.cursor.toNat))
include hin

/-- CHK_NEXT at the end of input sets EOI, which is no error, and writes nothing else (R101). -/
theorem exec_chkNext_of_cursor_eq (hend : s.cursor.toNat = s.ibufLen.toNat) :
    exec .chkNext s = .next (ended (encode .chkNext) (Status.success true) 0 s) := by
  have hrule := ruleChkNext_end (s := issue (encode .chkNext) s) hin hend
  rw [exec_eq, ruleOf, hrule]
  rfl

/-- CHK_NEXT on a chunk that does not fit in the input raises Truncated of the bytes left and writes nothing (R101). -/
theorem exec_chkNext_of_not_framed (hne : s.cursor.toNat ≠ s.ibufLen.toNat)
    (hout : ¬ framed s s.ibufLen.toNat s.cursor.toNat) :
    exec .chkNext s =
      .next (failed (encode .chkNext) .truncated (toWord (s.ibufLen.toNat - s.cursor.toNat)) s) :=
  exec_of_rule_raise (ruleChkNext_truncated (s := issue (encode .chkNext) s) hin hne hout)

variable (hframed : framed s s.ibufLen.toNat s.cursor.toNat)
include hframed

/-- CHK_NEXT on a framed chunk fails as parse_slice raises, with the seven registers written and the walk where it
was (R101). -/
theorem exec_chkNext_of_parseSlice_raise {k : ErrorKind} {info : Word}
    (hslice : parseSlice s.cursor.toNat (12 + declaredLength s s.cursor.toNat) (issue (encode .chkNext) s) =
      .raise k info
        (writeParse s.cursor.toNat (12 + declaredLength s s.cursor.toNat) (issue (encode .chkNext) s))) :
    exec .chkNext s = .next (failed (encode .chkNext) k info
      (writeParse s.cursor.toNat (12 + declaredLength s s.cursor.toNat) s)) :=
  exec_of_rule_raise ((ruleChkNext_framed (s := issue (encode .chkNext) s) hin hframed).trans
    (congrArg (Effect.andThen · _) hslice))

/-- CHK_NEXT on a framed chunk that parse_slice accepts moves the walk past the chunk and counts it (R101). -/
theorem exec_chkNext_of_parseSlice_done
    (hslice : parseSlice s.cursor.toNat (12 + declaredLength s s.cursor.toNat) (issue (encode .chkNext) s) =
      .done (writeParse s.cursor.toNat (12 + declaredLength s s.cursor.toNat) (issue (encode .chkNext) s))) :
    exec .chkNext s = .next (succeeded (encode .chkNext)
      { writeParse s.cursor.toNat (12 + declaredLength s s.cursor.toNat) s with
        cursor := toWord (s.cursor.toNat + 12 + declaredLength s s.cursor.toNat)
        chunkCount := s.chunkCount + 1 }) :=
  exec_of_rule_done ((ruleChkNext_framed (s := issue (encode .chkNext) s) hin hframed).trans
    (congrArg (Effect.andThen · _) hslice))

end

/-- Settles O41: the checks in their order. The slice is framed by the chunk's own declared length, so once the tag and
the CRC are good parse_slice's length check cannot fail. -/
theorem chkNextParsesTheChunkAtTheCursor : Obligations.ChkNextParsesTheChunkAtTheCursor := by
  intro s e p l u
  split
  next hout => exact exec_chkNext_of_size_lt_or_lt_cursor hout
  next hin =>
    split
    next hend => exact exec_chkNext_of_cursor_eq hin hend
    next hne =>
      split
      next hshort =>
        have hout : ¬ framed s e p := fun ⟨hfixed, hdeclared⟩ => hshort.elim hfixed.not_gt hdeclared.not_gt
        exact exec_chkNext_of_not_framed hin hne hout
      next hlong =>
        obtain ⟨hfixed, hdeclared⟩ := not_or.1 hlong
        have hframed : framed s e p := ⟨Nat.not_lt.1 hfixed, Nat.not_lt.1 hdeclared⟩
        split
        next b hbad => exact exec_chkNext_of_parseSlice_raise hin hframed (parseSlice_eq_invalidByte hbad)
        next hgood =>
          split
          next hcrc => exact exec_chkNext_of_parseSlice_raise hin hframed (parseSlice_eq_crcMismatch hgood hcrc)
          next hcrc =>
            have hlen : declaredLength s p = 12 + declaredLength s p - 12 := (Nat.add_sub_cancel_left ..).symm
            exact exec_chkNext_of_parseSlice_done hin hframed (parseSlice_eq_done hgood (not_not.1 hcrc) hlen)

end Sys2Proof.Machine
end

section
/-! PROOFS. The statements of 70_reset_and_hazards.md about the two resets: power-on (R121) and soft (R122). Both give
the registers of `State.powerOn`; they differ in the buffers. -/

namespace Sys2Proof.Machine

/-! ### The reset column (R17, R47) -/

/-- STATUS with every field at reset reads 0 (R21). -/
theorem powerOn_status_toWord (p : Params) (n : Nat) : (State.powerOn p n).status.toWord = 0 := by
  have hword : ({ busy := false, done := false, err := false, eoi := false, errcode := 0 } : Status).toWord = 0 := by
    decide
  exact hword

/-- CRC_OUT is the complement of CRC_STATE, whose bits are all 1 after reset (R31). -/
theorem powerOn_crcOut (p : Params) (n : Nat) : crcOut (State.powerOn p n) = 0 := BitVec.xor_self

/-- The reset column: STATUS and CRC_OUT are computed from other fields, the rest is read as stored (R17). -/
theorem powerOn_reg (p : Params) (n : Nat) (r : Reg) :
    (State.powerOn p n).reg r = if r = .crcState then 0xFFFFFFFF else 0 := by
  cases r
  case status => exact powerOn_status_toWord p n
  case crcOut => exact powerOn_crcOut p n
  all_goals rfl

theorem powerOn_irq (p : Params) (n : Nat) : irq (State.powerOn p n) = false := rfl

/-- No buffer byte is written yet, so each reads as its free draw (R47). -/
theorem powerOn_bufferByte (p : Params) (n : Nat) (b : Buffer) (a : Nat) :
    (State.powerOn p n).bufferByte b a = Config.powerOnByte b n a := by
  cases b <;> rfl

/-! ### Power-on reset (R121) -/

section
variable (s : State)

theorem powerOnReset_reg (r : Reg) : (powerOnReset s).reg r = if r = .crcState then 0xFFFFFFFF else 0 :=
  powerOn_reg s.params (s.powerOns + 1) r

theorem powerOnReset_irq : irq (powerOnReset s) = false := powerOn_irq s.params (s.powerOns + 1)

theorem powerOnReset_bufferByte (b : Buffer) (a : Nat) :
    (powerOnReset s).bufferByte b a = Config.powerOnByte b (s.powerOns + 1) a :=
  powerOn_bufferByte s.params (s.powerOns + 1) b a

/-- A power-on is no host access, so BUSY does not hold it up (R121, R125). -/
theorem perform_powerOnReset : perform .powerOnReset s = .next (powerOnReset s) := by
  simp [perform, allowedWhileBusy]

end

/-- Settles O1: the power-on is performed in every state, and what it leaves, like the reset state, has the registers
and buffer bytes of `State.powerOn`. -/
theorem powerOnResetGivesTheResetColumn : Obligations.PowerOnResetGivesTheResetColumn := by
  refine ⟨fun s rest => ?_, powerOn_reg Config.params 0, powerOn_irq Config.params 0,
    powerOn_bufferByte Config.params 0⟩
  have hstep : step { s with pending := .powerOnReset :: rest } = .next (powerOnReset { s with pending := rest }) := by
    rw [step_cons, perform_powerOnReset]
  exact ⟨_, hstep, powerOnReset_reg _, powerOnReset_irq _, powerOnReset_bufferByte _, rfl, rfl⟩

/-! ### Soft reset (R122) -/

section
variable (s : State)

theorem softReset_reg (r : Reg) : (softReset s).reg r = if r = .crcState then 0xFFFFFFFF else 0 :=
  powerOn_reg s.params s.powerOns r

theorem softReset_irq : irq (softReset s) = false := powerOn_irq s.params s.powerOns

/-- A soft reset keeps both lists and the number of the power-on they are read with (R122). -/
theorem softReset_bufferByte (b : Buffer) (a : Nat) : (softReset s).bufferByte b a = s.bufferByte b a := by
  cases b <;> rfl

/-- A write to CTRL with SRST = 1 is the soft reset: the IRQ_EN it writes first is reset with the rest (R22, R122). -/
theorem writeCtrl_of_srst {v : Word} (h : v.getLsbD 1 = true) : writeCtrl v s = softReset s := by
  rw [writeCtrl, if_pos h]
  rfl

end

/-- SRST is not stored and reads 0 (R22). -/
theorem Ctrl.toWord_srst (c : Ctrl) : c.toWord.getLsbD 1 = false := by
  simp [Ctrl.toWord]

/-- Settles O2: the write reaches CTRL, and bit 1 makes it the soft reset. -/
theorem softResetKeepsTheBuffers : Obligations.SoftResetKeepsTheBuffers := by
  refine ⟨fun s w rest hb hw => ?_, fun s => Ctrl.toWord_srst s.ctrl⟩
  have hstep : step { s with pending := wr .ctrl w :: rest } = .next (softReset { s with pending := rest }) := by
    calc step { s with pending := wr .ctrl w :: rest }
        _ = .next (writeCtrl w { s with pending := rest }) := step_wr hb .ctrl w rest
        _ = .next (softReset { s with pending := rest }) := by rw [writeCtrl_of_srst _ hw]
  exact ⟨_, hstep, softReset_reg _, softReset_irq _, softReset_bufferByte _, rfl, rfl⟩

end Sys2Proof.Machine
end

section
/-! PROOFS. What a command leaves, from what its rule can do: the end of the command cycle (40_command_cycle.md R73,
R74), the rows of R42, and the kinds and precision of errors (60_exceptions.md R106 to R108). -/

namespace Sys2Proof.Machine

/-! ### The two ends of a command (R73) -/

/-- A command ends with the completion of what its rule returned, or with the record of what its rule raised (R73). -/
theorem exec_done_or_raise {i : Instr} {s t : State} (h : exec i s = .next t) :
    (∃ u, RuleDone i (issue (encode i) s) u ∧ t = complete u) ∨
      ∃ k v u, RuleRaise i (issue (encode i) s) k v u ∧ t = raiseError k v u := by
  have hrule := rule_sat i (issue (encode i) s)
  rw [exec_eq_next h]
  cases he : ruleOf i (issue (encode i) s) with
  | done u => exact .inl ⟨u, by rwa [he] at hrule, rfl⟩
  | raise k v u => exact .inr ⟨k, v, u, by rwa [he] at hrule, rfl⟩

/-- The completion of a rule that returned reads as success; only the two walk commands can set EOI (R74, R101). -/
theorem RuleDone.complete_status {i : Instr} {w : Word} {s u : State} (h : RuleDone i (issue w s) u) :
    ∃ eoi, (complete u).status = Status.success eoi ∧ (eoi = true → i ∈ ([.chkNext, .pngParse] : List Instr)) := by
  rcases h.status with hs | ⟨hi, hs⟩
  · exact ⟨false, by simp [hs, Status.success], nofun⟩
  · exact ⟨true, by simp [hs, Status.success], fun _ => hi⟩

/-- A raise records its kind, with EOI at 0 as the issue left it (R107). -/
theorem RuleRaise.raiseError_status {i : Instr} {w : Word} {s u : State} {k : ErrorKind} {v : Word}
    (h : RuleRaise i (issue w s) k v u) : (raiseError k v u).status = Status.failure k := by
  simp [h.status, Status.failure]

/-- What the issue keeps, a rule keeps and completion keeps: all that no command writes (R42). -/
structure CommandKeeps (s t : State) : Prop where
  params : t.params = s.params
  ctrl : t.ctrl = s.ctrl
  ibuf : t.ibuf = s.ibuf
  powerOns : t.powerOns = s.powerOns
  pending : t.pending = s.pending
  lastRead : t.lastRead = s.lastRead
  typeFlags : t.typeFlags = s.typeFlags ∨ ∃ q, t.typeFlags = tagFlags q

theorem exec_keeps {i : Instr} {s t : State} (h : exec i s = .next t) : CommandKeeps s t := by
  rcases exec_done_or_raise h with ⟨u, ⟨hk, -, -, -, -⟩, rfl⟩ | ⟨k, v, u, ⟨hk, -, -, -, -, -⟩, rfl⟩ <;>
    exact ⟨hk.params, hk.ctrl, hk.ibuf, hk.powerOns, hk.pending, hk.lastRead, hk.typeFlags⟩

/-- CMD holds the issued word (R73). -/
theorem exec_cmd {i : Instr} {s t : State} (h : exec i s = .next t) : t.cmd = encode i := by
  rcases exec_done_or_raise h with ⟨u, hu, rfl⟩ | ⟨k, v, u, hu, rfl⟩
  · exact hu.keeps.cmd
  · exact hu.keeps.cmd

/-- A command completes: BUSY is 0 and DONE is 1 (R74). -/
theorem exec_completes {i : Instr} {s t : State} (h : exec i s = .next t) :
    t.status.busy = false ∧ t.status.done = true := by
  rcases exec_done_or_raise h with ⟨u, -, rfl⟩ | ⟨k, v, u, -, rfl⟩
  · exact ⟨rfl, rfl⟩
  · exact ⟨rfl, rfl⟩

/-- A command changes OBUF by one MemWrite within it, or not at all; only four commands store (R42, R48). -/
theorem exec_obuf {i : Instr} {s t : State} (h : exec i s = .next t) :
    t.obuf = s.obuf ∨ i ∈ ([.stBe32, .copy, .sigWr, .chkEmit] : List Instr) ∧
      ∃ a bs, t.obuf = Memory.storeAll s.obuf a bs ∧ a + bs.length ≤ s.params.obufSize.bytes := by
  rcases exec_done_or_raise h with ⟨u, hu, rfl⟩ | ⟨k, v, u, hu, rfl⟩
  · exact hu.obuf
  · exact .inl hu.obuf

/-! ### A write of any word to CMD (R73, R75) -/

/-- Issuing a word runs the command it encodes, or reports BadCommand when it is illegal (R73, R75). -/
theorem issueWord_cases {w : Word} {s t : State} (h : issueWord w s = .next t) :
    (∃ i, encode i = w ∧ exec i s = .next t) ∨ legal w = false ∧ t = failed w .badCommand w s := by
  cases hl : legal w with
  | true =>
    obtain ⟨i, hi⟩ := exists_decode_eq_ok_iff_legal.2 hl
    exact .inl ⟨i, encode_of_decode hi, by rwa [issueWord_of_decode hi] at h⟩
  | false =>
    rw [issueWord_of_illegal hl] at h
    cases h
    exact .inr ⟨rfl, rfl⟩

/-- What any issued word keeps (R42, R75). -/
theorem issueWord_keeps {w : Word} {s t : State} (h : issueWord w s = .next t) : CommandKeeps s t := by
  rcases issueWord_cases h with ⟨i, -, hi⟩ | ⟨-, rfl⟩
  · exact exec_keeps hi
  · exact ⟨rfl, rfl, rfl, rfl, rfl, rfl, .inl rfl⟩

/-- Settles O11: the write issues the word, which runs its command or reports BadCommand; both complete. -/
theorem everyCommandWordCompletes : Obligations.EveryCommandWordCompletes := by
  intro s w rest hb
  obtain ⟨t, ht⟩ := writeRegister_next .cmd w { s with pending := rest }
  have hk := issueWord_keeps ht
  obtain ⟨hcmd, hbusy, hdone⟩ : t.cmd = w ∧ t.status.busy = false ∧ t.status.done = true := by
    rcases issueWord_cases ht with ⟨i, rfl, hi⟩ | ⟨-, rfl⟩
    · exact ⟨exec_cmd hi, exec_completes hi⟩
    · exact ⟨rfl, rfl, rfl⟩
  exact ⟨t, (step_wr hb .cmd w rest).trans ht, hcmd, hbusy, hdone, by simp [irq, hdone, hk.ctrl], hk.ctrl, hk.pending,
    hk.params⟩

/-- Settles O12: the issue overwrites all three. -/
theorem issueForgetsTheOldRecord : Obligations.IssueForgetsTheOldRecord := by
  intro i s w info st
  have hissue : issue (encode i) { s with cmd := w, status := st, errInfo := info } = issue (encode i) s := rfl
  rw [exec_eq, exec_eq, hissue]

/-- Settles O8: an aligned word write at offset 0 reaches CMD. -/
theorem stepRunsTheIssuedCommand : Obligations.StepRunsTheIssuedCommand := by
  intro s w i rest hb hw
  calc step { s with pending := .writeReg .word 0x00 w :: rest }
      _ = issueWord w { s with pending := rest } := step_wr hb .cmd w rest
      _ = exec i { s with pending := rest } := issueWord_of_decode hw _

/-! ### The rows of R42 -/

/-- The issue writes CMD, STATUS and ERR_INFO alone (R73). -/
theorem issue_reg (w : Word) (s : State) {r : Reg} (h : r ∉ ([.cmd, .status, .errInfo] : List Reg)) :
    (issue w s).reg r = s.reg r := by
  cases r
  case cmd | status | errInfo => exact absurd (by decide) h
  all_goals rfl

/-- Completion writes STATUS alone (R74). -/
theorem complete_reg (s : State) {r : Reg} (h : r ≠ .status) : (complete s).reg r = s.reg r := by
  cases r
  case status => exact absurd rfl h
  all_goals rfl

/-- A raise writes STATUS and ERR_INFO alone (R107). -/
theorem raiseError_reg (k : ErrorKind) (v : Word) (s : State) {r : Reg}
    (h : r ∉ ([.status, .errInfo] : List Reg)) : (raiseError k v s).reg r = s.reg r := by
  cases r
  case status | errInfo => exact absurd (by decide) h
  all_goals rfl

/-- R42's second column lists no register that is not in the first. -/
theorem commandWritesBeforeRaise_subset (i : Instr) (k : ErrorKind) :
    commandWritesBeforeRaise i k ⊆ commandWrites i := by
  cases i
  case crcByte b => cases k <;> exact List.nil_subset _
  all_goals cases k <;> decide

/-- The nine codes differ (R106). -/
theorem ErrorKind.code_inj {k k' : ErrorKind} (h : k.code = k'.code) : k = k' := by
  revert h
  cases k <;> cases k' <;> decide

theorem Status.failure_inj {k k' : ErrorKind} (h : Status.failure k = Status.failure k') : k = k' :=
  ErrorKind.code_inj (congrArg Status.errcode h)

theorem Status.failure_ne_success (k : ErrorKind) (eoi : Bool) : Status.failure k ≠ Status.success eoi :=
  fun h => Bool.noConfusion (congrArg Status.err h)

section
variable {i : Instr} {s t : State} (h : exec i s = .next t)
include h

/-- A command that failed has written only the registers of its row's second column (R42, R108). -/
theorem exec_reg_of_failure {k : ErrorKind} (hst : t.status = Status.failure k) {r : Reg}
    (hr : r ∉ ([.cmd, .status, .errInfo] : List Reg)) (hw : r ∉ commandWritesBeforeRaise i k) : t.reg r = s.reg r := by
  rcases exec_done_or_raise h with ⟨u, hu, rfl⟩ | ⟨k', v, u, hu, rfl⟩
  · obtain ⟨eoi, hsucc, -⟩ := hu.complete_status
    exact absurd (hst.symm.trans hsucc) (Status.failure_ne_success k eoi)
  · obtain rfl : k' = k := Status.failure_inj (hu.raiseError_status.symm.trans hst)
    rw [raiseError_reg _ _ _ fun hmem => hr (List.mem_cons_of_mem _ hmem), hu.reg r hw, issue_reg _ _ hr]

/-- A command writes only the registers of its row, and CRC_OUT only by CRC_STATE (R31, R42). -/
theorem exec_reg {r : Reg} (hr : r ∉ ([.cmd, .status, .errInfo] : List Reg)) (hw : r ∉ commandWrites i)
    (hcrc : ¬ (r = .crcOut ∧ Reg.crcState ∈ commandWrites i)) : t.reg r = s.reg r := by
  rcases exec_done_or_raise h with ⟨u, hu, rfl⟩ | ⟨k, v, u, hu, rfl⟩
  · have hstatus : r ≠ .status := fun he => hr (by simp [he])
    rw [complete_reg u hstatus]
    by_cases hout : r = .crcOut
    · subst hout
      have hkept : u.crcState = s.crcState := hu.crcState fun hmem => hcrc ⟨rfl, hmem⟩
      exact congrArg (· ^^^ 0xFFFFFFFF) hkept
    · rw [hu.reg r (by simp [hstatus, hout]) hw, issue_reg _ _ hr]
  · exact exec_reg_of_failure h hu.raiseError_status hr fun hmem => hw (commandWritesBeforeRaise_subset i k hmem)

/-- A command ends in success, with ERR_INFO at 0, or with the record of a kind of its row, and BufferBounds has the
value 0 (R106). -/
theorem exec_success_or_failure :
    (∃ eoi, t.status = Status.success eoi ∧ t.errInfo = 0 ∧
      (eoi = true → i ∈ ([.chkNext, .pngParse] : List Instr))) ∨
    ∃ k ∈ commandRaises i, t.status = Status.failure k ∧ (k = .bufferBounds → t.errInfo = 0) ∧ t.obuf = s.obuf := by
  rcases exec_done_or_raise h with ⟨u, hu, rfl⟩ | ⟨k, v, u, hu, rfl⟩
  · obtain ⟨eoi, hsucc, heoi⟩ := hu.complete_status
    exact .inl ⟨eoi, hsucc, hu.keeps.errInfo, heoi⟩
  · exact .inr ⟨k, hu.kind, hu.raiseError_status, hu.bounds, hu.obuf⟩

end

/-- Settles O14: a register, then a register after a raise, as the rule's row says; IBUF's list and its draws are kept,
and OBUF's too unless the command is one of the four that store. -/
theorem commandsWriteOnlyTheirRow : Obligations.CommandsWriteOnlyTheirRow := by
  intro i s t h
  have hk := exec_keeps h
  refine ⟨fun r => exec_reg h, fun k hst r => exec_reg_of_failure h hst, fun a => ?_, fun hi a => ?_, hk.params,
    hk.pending, hk.lastRead, hk.powerOns⟩
  · rw [State.ibufByte, hk.ibuf, hk.powerOns, State.ibufByte]
  · have hobuf : t.obuf = s.obuf := (exec_obuf h).resolve_right fun hstore => hi hstore.1
    rw [State.obufByte, hobuf, hk.powerOns, State.obufByte]

/-- Settles O15: with ERR = 1 the command raised, which leaves both buffers as they were. -/
theorem errorsArePrecise : Obligations.ErrorsArePrecise := by
  intro i s t h herr
  have hk := exec_keeps h
  rcases exec_success_or_failure h with ⟨eoi, hst, -, -⟩ | ⟨k, hkind, hst, -, hobuf⟩
  · rw [hst] at herr
    exact absurd herr Bool.false_ne_true
  · refine ⟨k, hst, hkind, fun r => exec_reg_of_failure h hst, fun b a => ?_⟩
    cases b
    · rw [State.bufferByte, State.ibufByte, hk.ibuf, hk.powerOns]
      rfl
    · rw [State.bufferByte, State.obufByte, hobuf, hk.powerOns]
      rfl

/-- Settles O16: a command's two ends; the STATUS words are computed. -/
theorem commandsRaiseOnlyTheirKinds : Obligations.CommandsRaiseOnlyTheirKinds := by
  refine ⟨fun i s t h => ?_, by decide, by decide, by decide, by decide, by decide, by decide, by decide, by decide⟩
  rcases exec_success_or_failure h with ⟨eoi, hst, hinfo, -⟩ | ⟨k, hkind, hst, hbounds, -⟩
  · exact .inl ⟨by rw [hst]; rfl, by rw [hst]; rfl, hinfo⟩
  · exact .inr ⟨k, hkind, hst, hbounds⟩

end Sys2Proof.Machine
end

section
/-! PROOFS. Decoding and encoding in both directions (30_encoding.md R64, R67, R68), and the invariant of the block's
state that every step keeps (10_state.md R21, R40, R41, R44). -/

namespace Sys2Proof.Machine

/-! ### Decode and encode -/

/-- Every command's word decodes to it (R67). -/
theorem decode_encode (i : Instr) : decode (encode i) = .ok i := by
  cases i with
  | crcByte b =>
    obtain ⟨-, -, -, hdecode⟩ := Laws.EncodedWord.crcByte b rfl
    exact hdecode
  | _ => rfl

/-- Every command's word is legal (R68). -/
theorem legal_encode (i : Instr) : legal (encode i) = true := exists_decode_eq_ok_iff_legal.1 ⟨i, decode_encode i⟩

/-- Settles O5: a decoded command's word is the word, and a command's word decodes to the command. -/
theorem decodeAndEncodeAgree : Obligations.DecodeAndEncodeAgree := by
  intro w i
  constructor
  · exact encode_of_decode
  · rintro rfl
    exact decode_encode i

/-- Settles O7: each word is split into its fields and looked up. -/
theorem opcodeMapWordsDecode : Obligations.OpcodeMapWordsDecode :=
  ⟨rfl, rfl, rfl, rfl, rfl, rfl, rfl, rfl, rfl, rfl, rfl⟩

/-! ### What a step can do -/

/-- The state that an action of the outside world leaves, when it goes on (R15). -/
inductive Performed (s : State) : HostAction → State → Prop
  | readReg {width : AccessWidth} {off : BitVec 8} (hw : windowRefusal width off = none) :
      Performed s (.readReg width off) { s with lastRead := some (.word (readWindow off s)) }
  | writeReg {width : AccessWidth} {off : BitVec 8} {v : Word} {t : State} (hw : windowRefusal width off = none)
      (h : writeWindow off v s = .next t) : Performed s (.writeReg width off v) t
  | readByte {b : Buffer} {a : Word} (h : a.toNat < bufferSize b s) :
      Performed s (.readByte b a) { s with lastRead := some (.byte (s.bufferByte b a.toNat)) }
  | writeByte {b : Buffer} {a : Word} {v : Byte} (h : a.toNat < bufferSize b s) :
      Performed s (.writeByte b a v) (writeBuffer b a.toNat v s)
  | powerOnReset : Performed s .powerOnReset (powerOnReset s)

/-- An action that goes on was neither refused nor at an absent byte. -/
theorem performed_of_perform {act : HostAction} {s t : State} (h : perform act s = .next t) : Performed s act t := by
  unfold perform at h
  split at h
  · cases h
  cases act <;> dsimp only at h
  case readReg width off =>
    split at h <;> cases h
    next hw => exact .readReg hw
  case writeReg width off v =>
    split at h
    next => cases h
    next hw => exact .writeReg hw h
  case readByte b a =>
    split at h <;> cases h
    next ha => exact .readByte (Nat.not_le.1 ha)
  case writeByte b a v =>
    split at h <;> cases h
    next ha => exact .writeByte (Nat.not_le.1 ha)
  case powerOnReset =>
    cases h
    exact .powerOnReset

/-- A write to the window writes a register, or nothing where the window is unmapped (R19). -/
theorem writeWindow_cases {off : BitVec 8} {v : Word} {s t : State} (h : writeWindow off v s = .next t) :
    t = s ∨ ∃ r, writeRegister r v s = .next t := by
  unfold writeWindow at h
  split at h
  next r _ => exact .inr ⟨r, h⟩
  next =>
    cases h
    exact .inl rfl

/-- A step that goes on performed the first action of the list, or there was none (R15, R119). -/
theorem step_cases {s t : State} (h : step s = .next t) :
    (s.pending = [] ∧ t = s) ∨
      ∃ act rest, s.pending = act :: rest ∧ Performed { s with pending := rest } act t := by
  unfold step at h
  split at h
  next hnil =>
    cases h
    exact .inl ⟨hnil, rfl⟩
  next act rest hcons => exact .inr ⟨act, rest, hcons, performed_of_perform h⟩

/-! ### The three parts of the invariant: the buffers, TYPE_FLAGS and the report -/

/-- Both lists are canonical and within their buffers (R44). -/
def BuffersWithin (s : State) : Prop :=
  Memory.within s.ibuf s.params.ibufSize.bytes ∧ Memory.within s.obuf s.params.obufSize.bytes

/-- What R41 says of TYPE_FLAGS: bits 31:6 are 0, and VALID is its formula. -/
def FlagsWellFormed (w : Word) : Prop :=
  w.toNat < 64 ∧ w.getLsbD 4 = (w.getLsbD 0 && !w.getLsbD 1 && w.getLsbD 2 && w.getLsbD 3)

theorem State.Inv.buffersWithin {s : State} (h : s.Inv) : BuffersWithin s := ⟨h.ibuf, h.obuf⟩

theorem State.Inv.flagsWellFormed {s : State} (h : s.Inv) : FlagsWellFormed s.typeFlags :=
  ⟨h.flagsReserved, h.flagsValid⟩

/-- The flags of a tag, bit by bit, and no bit above them (R86). -/
theorem tagFlags_bits (t : Quad) :
    (tagFlags t).toNat < 64 ∧ (tagFlags t).getLsbD 0 = isUpper t.b0 ∧ (tagFlags t).getLsbD 1 = isUpper t.b1 ∧
      (tagFlags t).getLsbD 2 = isUpper t.b2 ∧ (tagFlags t).getLsbD 3 = isLower t.b3 ∧
      (tagFlags t).getLsbD 4 = (isUpper t.b0 && !isUpper t.b1 && isUpper t.b2 && isLower t.b3) ∧
      (tagFlags t).getLsbD 5 = (isAlpha t.b0 && isAlpha t.b1 && isAlpha t.b2 && isAlpha t.b3) :=
  sixFlags_getLsbD _ _ _ _ _ _

theorem flagsWellFormed_zero : FlagsWellFormed 0 := ⟨by decide, by decide⟩

/-- The flags of any four bytes are well formed (R86). -/
theorem flagsWellFormed_tagFlags (t : Quad) : FlagsWellFormed (tagFlags t) := by
  obtain ⟨hlt, hcritical, hpublic, hreserved, hsafe, hvalid, -⟩ := tagFlags_bits t
  exact ⟨hlt, by rw [hvalid, hcritical, hpublic, hreserved, hsafe]⟩

/-- The invariant after a success: no error is recorded, the word is legal, and EOI comes from a walk command. -/
theorem inv_of_success {s : State} {eoi : Bool} (hbuf : BuffersWithin s) (hflags : FlagsWellFormed s.typeFlags)
    (hst : s.status = Status.success eoi) (hinfo : s.errInfo = 0) (hlegal : legal s.cmd = true)
    (heoi : eoi = true → s.cmd = 0x21 ∨ s.cmd = 0x23) : s.Inv where
  ibuf := hbuf.1
  obuf := hbuf.2
  idle := by rw [hst, Status.success]
  errIff := by simp [hst, Status.success]
  errcode := by simp [hst, Status.success]
  errInfo _ := hinfo
  boundsInfo _ := hinfo
  eoiNoErr := by simp [hst, Status.success]
  eoiCmd := by simpa [hst, Status.success] using heoi
  badCommand := by simp [hst, hlegal, Status.success]
  badCommandInfo := by simp [hst, Status.success]
  flagsReserved := hflags.1
  flagsValid := hflags.2

/-- The codes of the kinds the block raises (R106, U13): all but InvalidLength's and NotFound's. -/
theorem code_of_raised {k : ErrorKind} (hk : k ≠ .invalidLength ∧ k ≠ .notFound) :
    k.code ≠ 0 ∧ k.code ∈ ([0, 1, 3, 4, 5, 7, 8, 9] : List (BitVec 4)) := by
  revert hk
  cases k <;> decide

/-- The invariant after an error: the kind is one the block raises, BufferBounds has the value 0, and BadCommand goes
with an illegal word, which is its value. -/
theorem inv_of_failure {s : State} {k : ErrorKind} (hbuf : BuffersWithin s) (hflags : FlagsWellFormed s.typeFlags)
    (hst : s.status = Status.failure k) (hraised : k ≠ .invalidLength ∧ k ≠ .notFound)
    (hbounds : k = .bufferBounds → s.errInfo = 0) (hbad : k = .badCommand ↔ legal s.cmd = false)
    (hbadInfo : k = .badCommand → s.errInfo = s.cmd) : s.Inv := by
  obtain ⟨hcode, hcodes⟩ := code_of_raised hraised
  have hcodeBounds : k.code = 9 → k = .bufferBounds := fun h => ErrorKind.code_inj h
  have hcodeBad : k.code = 8 ↔ k = .badCommand := ⟨fun h => ErrorKind.code_inj h, fun h => h ▸ rfl⟩
  exact {
    ibuf := hbuf.1
    obuf := hbuf.2
    idle := by rw [hst, Status.failure]
    errIff := by simpa [hst, Status.failure] using hcode
    errcode := by rwa [hst, Status.failure]
    errInfo := by simp [hst, Status.failure]
    boundsInfo := by rw [hst]; exact fun h => hbounds (hcodeBounds h)
    eoiNoErr := by simp [hst, Status.failure]
    eoiCmd := by simp [hst, Status.failure]
    badCommand := by rw [hst]; exact hcodeBad.trans hbad
    badCommandInfo := by rw [hst]; exact fun h => hbadInfo (hcodeBad.1 h)
    flagsReserved := hflags.1
    flagsValid := hflags.2 }

/-! ### The invariant at reset, after a command, and after a step -/

/-- Every power-on or soft reset leaves the invariant once the buffers are within their sizes: the record is empty, and
CMD is NOP's word. -/
theorem inv_of_powerOn {p : Params} {n : Nat} {i o : Memory} {acts : List HostAction} {r : Option ReadData}
    (hi : Memory.within i p.ibufSize.bytes) (ho : Memory.within o p.obufSize.bytes) :
    State.Inv { State.powerOn p n with ibuf := i, obuf := o, pending := acts, lastRead := r } where
  ibuf := hi
  obuf := ho
  idle := rfl
  errIff := by simp [State.powerOn]
  errcode := by simp [State.powerOn]
  errInfo _ := rfl
  boundsInfo _ := rfl
  eoiNoErr := by simp [State.powerOn]
  eoiCmd := by simp [State.powerOn]
  badCommand := ⟨fun h => absurd h (by simp [State.powerOn]), fun h => absurd h (by simp [State.powerOn]; decide)⟩
  badCommandInfo := by simp [State.powerOn]
  flagsReserved := flagsWellFormed_zero.1
  flagsValid := flagsWellFormed_zero.2

theorem within_nil (size : Nat) : Memory.within [] size := ⟨List.Pairwise.nil, nofun⟩

/-- Settles O3: the reset state is a power-on with nothing written. -/
theorem resetStateMeetsTheInvariant : Obligations.ResetStateMeetsTheInvariant :=
  inv_of_powerOn (within_nil _) (within_nil _)

/-- No command's row lists a kind that the block does not raise, nor BadCommand, which is an illegal word's (R106). -/
theorem raised_of_mem_commandRaises {i : Instr} {k : ErrorKind} (h : k ∈ commandRaises i) :
    k ≠ .invalidLength ∧ k ≠ .notFound ∧ k ≠ .badCommand := by
  revert h
  cases i
  case crcByte b => exact nofun
  all_goals cases k <;> decide

/-- A command keeps the buffers within their sizes: IBUF is kept, and OBUF takes a MemWrite within it (R54). -/
theorem exec_buffersWithin {i : Instr} {s t : State} (h : exec i s = .next t) (hs : BuffersWithin s) :
    BuffersWithin t := by
  obtain ⟨hibuf, hobuf⟩ := hs
  have hk := exec_keeps h
  refine ⟨by rwa [hk.ibuf, hk.params], ?_⟩
  rcases exec_obuf h with hkept | ⟨-, a, bs, hwritten, hle⟩
  · rwa [hkept, hk.params]
  · rw [hwritten, hk.params]
    exact Memory.within_storeAll hobuf a bs hle

/-- TYPE_FLAGS is kept, or takes the flags of some four bytes (R41). -/
theorem exec_flagsWellFormed {i : Instr} {s t : State} (h : exec i s = .next t) (hs : FlagsWellFormed s.typeFlags) :
    FlagsWellFormed t.typeFlags := by
  rcases (exec_keeps h).typeFlags with hkept | ⟨q, hq⟩
  · rwa [hkept]
  · rw [hq]
    exact flagsWellFormed_tagFlags q

/-- Every command keeps the invariant. -/
theorem inv_of_exec {i : Instr} {s t : State} (hs : s.Inv) (h : exec i s = .next t) : t.Inv := by
  have hbuf := exec_buffersWithin h hs.buffersWithin
  have hflags := exec_flagsWellFormed h hs.flagsWellFormed
  have hcmd := exec_cmd h
  have hlegal : legal t.cmd = true := hcmd ▸ legal_encode i
  rcases exec_success_or_failure h with ⟨eoi, hst, hinfo, heoi⟩ | ⟨k, hkind, hst, hbounds, -⟩
  · refine inv_of_success hbuf hflags hst hinfo hlegal fun hset => ?_
    rcases List.mem_pair.1 (heoi hset) with rfl | rfl
    · exact .inl hcmd
    · exact .inr hcmd
  · obtain ⟨hlength, hfound, hbad⟩ := raised_of_mem_commandRaises hkind
    exact inv_of_failure hbuf hflags hst ⟨hlength, hfound⟩ hbounds
      ⟨fun hk => absurd hk hbad, fun hil => absurd (hlegal.symm.trans hil) Bool.noConfusion⟩ fun hk => absurd hk hbad

/-- A write of any word to CMD keeps the invariant: an illegal word is recorded in CMD and in ERR_INFO (R75). -/
theorem inv_of_issueWord {w : Word} {s t : State} (hs : s.Inv) (h : issueWord w s = .next t) : t.Inv := by
  rcases issueWord_cases h with ⟨i, -, hi⟩ | ⟨hl, rfl⟩
  · exact inv_of_exec hs hi
  · exact inv_of_failure (s := failed w .badCommand w s) hs.buffersWithin hs.flagsWellFormed rfl
      ⟨nofun, nofun⟩ nofun ⟨fun _ => hl, fun _ => rfl⟩ fun _ => rfl

/-- A soft reset keeps both lists (R122). -/
theorem inv_of_softReset {s : State} (hs : s.Inv) : (softReset s).Inv := inv_of_powerOn hs.ibuf hs.obuf

/-- A power-on empties both lists (R121). -/
theorem inv_of_powerOnReset (s : State) : (powerOnReset s).Inv := inv_of_powerOn (within_nil _) (within_nil _)

/-- A register write keeps the invariant, which speaks of no register that the host can write but CMD, STATUS.DONE and
CTRL (R18, R21 to R23). -/
theorem inv_of_writeRegister {r : Reg} {v : Word} {s t : State} (hs : s.Inv) (h : writeRegister r v s = .next t) :
    t.Inv := by
  cases r
  case cmd => exact inv_of_issueWord hs h
  case status =>
    cases h
    unfold writeStatus
    split
    · exact { hs with }
    · exact hs
  case ctrl =>
    cases h
    unfold writeCtrl
    split
    · exact inv_of_softReset (s := { s with ctrl := _ }) { hs with }
    · exact { hs with }
  all_goals
    cases h
    exact { hs with }

/-- A host byte write within the buffer keeps the invariant (R44). -/
theorem inv_of_writeBuffer {b : Buffer} {a : Nat} {s : State} (hs : s.Inv) (ha : a < bufferSize b s) (v : Byte) :
    (writeBuffer b a v s).Inv := by
  cases b
  · exact { hs with ibuf := Memory.within_store hs.ibuf ha v }
  · exact { hs with obuf := Memory.within_store hs.obuf ha v }

/-- Every action of the outside world that goes on keeps the invariant. -/
theorem inv_of_performed {act : HostAction} {s t : State} (hs : s.Inv) (h : Performed s act t) : t.Inv := by
  cases h with
  | readReg => exact { hs with }
  | readByte => exact { hs with }
  | writeReg _ hwrite =>
    rcases writeWindow_cases hwrite with rfl | ⟨r, hr⟩
    · exact hs
    · exact inv_of_writeRegister hs hr
  | writeByte ha => exact inv_of_writeBuffer hs ha _
  | powerOnReset => exact inv_of_powerOnReset s

/-- Settles O4: a step performs the first action, if there is one, and the invariant does not speak of the list. -/
theorem everyStepKeepsTheInvariant : Obligations.EveryStepKeepsTheInvariant := by
  intro s t hs h
  rcases step_cases h with ⟨-, rfl⟩ | ⟨act, rest, -, hact⟩
  · exact hs
  · exact inv_of_performed (s := { s with pending := rest }) { hs with } hact

end Sys2Proof.Machine
end

section
/-! PROOFS. The outside world's actions: when they go on and what they keep (00_scope.md R5, R15), the register window
and the buffer bytes (10_state.md R17 to R23, R44), busy blocks (70_reset_and_hazards.md R125), and the host sequences
of 30_encoding.md R72. -/

namespace Sys2Proof.Machine

/-! ### Which actions go on, and what every step keeps -/

/-- An access to the window has a meaning exactly when it is 32 bits wide and aligned (R18). -/
theorem windowRefusal_eq_none {width : AccessWidth} {off : BitVec 8} :
    windowRefusal width off = none ↔ width = .word ∧ off.toNat % 4 = 0 := by
  unfold windowRefusal
  by_cases hwidth : width = .word <;> by_cases halign : off.toNat % 4 = 0 <;> simp [hwidth, halign]

/-- A byte read of a byte that exists returns it (R44). -/
theorem perform_readByte {s : State} (hb : s.status.busy = false) {b : Buffer} {a : Word}
    (ha : a.toNat < bufferSize b s) :
    perform (.readByte b a) s = .next { s with lastRead := some (.byte (s.bufferByte b a.toNat)) } := by
  simp [perform, hb, ha]

/-- A byte write of a byte that exists is performed (R44). -/
theorem perform_writeByte {s : State} (hb : s.status.busy = false) {b : Buffer} {a : Word}
    (ha : a.toNat < bufferSize b s) (v : Byte) :
    perform (.writeByte b a v) s = .next (writeBuffer b a.toNat v s) := by
  simp [perform, hb, ha]

/-- A write to the window always goes on (R19, R120). -/
theorem writeWindow_next (off : BitVec 8) (v : Word) (s : State) : ∃ t, writeWindow off v s = .next t := by
  unfold writeWindow
  split
  next r _ => exact writeRegister_next r v s
  next => exact ⟨s, rfl⟩

/-- Settles O55: an action with a meaning is performed, and what is performed had one. -/
theorem exactlyTheMeaningfulActionsComplete : Obligations.ExactlyTheMeaningfulActionsComplete := by
  intro s act rest hb
  have hb' : ({ s with pending := rest } : State).status.busy = false := hb
  rw [step_cons]
  constructor
  · intro hm
    cases act with
    | readReg width off =>
      obtain ⟨rfl, halign⟩ := hm
      exact ⟨_, perform_readReg_word hb' halign⟩
    | writeReg width off v =>
      obtain ⟨rfl, halign⟩ := hm
      obtain ⟨t, ht⟩ := writeWindow_next off v { s with pending := rest }
      exact ⟨t, (perform_writeReg_word hb' halign v).trans ht⟩
    | readByte b a => exact ⟨_, perform_readByte hb' hm⟩
    | writeByte b a v => exact ⟨_, perform_writeByte hb' hm v⟩
    | powerOnReset => exact ⟨_, perform_powerOnReset _⟩
  · rintro ⟨t, ht⟩
    cases performed_of_perform ht with
    | readReg hw => exact windowRefusal_eq_none.1 hw
    | writeReg hw _ => exact windowRefusal_eq_none.1 hw
    | readByte ha => exact ha
    | writeByte ha => exact ha
    | powerOnReset => trivial

/-- What every register write keeps that is no register of the block: the sizes, the list of actions and the number of
the power-on. -/
theorem writeRegister_keeps {r : Reg} {v : Word} {s t : State} (h : writeRegister r v s = .next t) :
    t.params = s.params ∧ t.pending = s.pending ∧ t.powerOns = s.powerOns := by
  cases r
  case cmd =>
    have hk := issueWord_keeps h
    exact ⟨hk.params, hk.pending, hk.powerOns⟩
  case status =>
    cases h
    unfold writeStatus
    split <;> exact ⟨rfl, rfl, rfl⟩
  case ctrl =>
    cases h
    unfold writeCtrl
    split <;> exact ⟨rfl, rfl, rfl⟩
  all_goals
    cases h
    exact ⟨rfl, rfl, rfl⟩

/-- What every action keeps: the sizes and the list of actions; only a power-on has a new number (R5, R15, R121). -/
theorem Performed.keeps {act : HostAction} {s t : State} (h : Performed s act t) :
    t.params = s.params ∧ t.pending = s.pending ∧
      t.powerOns = if act = .powerOnReset then s.powerOns + 1 else s.powerOns := by
  cases h with
  | readReg _ => exact ⟨rfl, rfl, rfl⟩
  | readByte _ => exact ⟨rfl, rfl, rfl⟩
  | writeReg _ hwrite =>
    rcases writeWindow_cases hwrite with rfl | ⟨r, hr⟩
    · exact ⟨rfl, rfl, rfl⟩
    · exact writeRegister_keeps hr
  | @writeByte b _ _ _ => cases b <;> exact ⟨rfl, rfl, rfl⟩
  | powerOnReset => exact ⟨rfl, rfl, rfl⟩

/-- Settles O57: with no action the state is kept; an action is taken off the list and keeps the rest. -/
theorem stepsKeepTheParameters : Obligations.StepsKeepTheParameters := by
  intro s t h
  rcases step_cases h with ⟨hnil, rfl⟩ | ⟨act, rest, hcons, hact⟩
  · rw [hnil]
    exact ⟨rfl, rfl, rfl⟩
  · obtain ⟨hparams, hpending, hpowerOns⟩ := hact.keeps
    rw [hcons]
    refine ⟨hparams, hpending, ?_⟩
    simpa using hpowerOns

/-- Settles O9: with no action pending a step is the state. -/
theorem idleStepKeepsTheState : Obligations.IdleStepKeepsTheState := by
  intro s h
  rw [step, h]

/-! ### The register window -/

/-- Settles O47: an aligned word read reaches the register; the offsets are computed. -/
theorem registerReadsReturnTheRegister : Obligations.RegisterReadsReturnTheRegister :=
  ⟨fun _ r rest hb => step_rd hb r rest, rfl, fun _ => rfl⟩

/-- Settles O49: the write reaches a register that ignores it. -/
theorem readOnlyRegistersIgnoreWrites : Obligations.ReadOnlyRegistersIgnoreWrites := by
  intro s r v rest hb hr
  rw [step_wr hb]
  cases r
  case cmd | status | ctrl | src | cnt | val | ibufLen | cursor | optr => exact absurd (by decide) hr
  all_goals rfl

section
variable {s : State} (hb : s.status.busy = false) {width : AccessWidth} {off : BitVec 8} {why : Refusal}
  (hw : windowRefusal width off = some why)
include hb hw

theorem perform_readReg_refused : perform (.readReg width off) s = .refused why := by simp [perform, hb, hw]

theorem perform_writeReg_refused (v : Word) : perform (.writeReg width off v) s = .refused why := by
  simp [perform, hb, hw]

end

/-- Settles O50: the width is looked at first, then the alignment. -/
theorem narrowOrMisalignedAccessIsRefused : Obligations.NarrowOrMisalignedAccessIsRefused := by
  intro s width off v rest hb
  have hb' : ({ s with pending := rest } : State).status.busy = false := hb
  refine ⟨fun hwidth => ?_, fun hwidth halign => ?_⟩
  · have hw : windowRefusal width off = some .registerAccessNotWord := if_pos hwidth
    exact ⟨perform_readReg_refused hb' hw, perform_writeReg_refused hb' hw v⟩
  · have hw : windowRefusal width off = some .registerAccessMisaligned :=
      (if_neg (not_not.2 hwidth)).trans (if_pos halign)
    exact ⟨perform_readReg_refused hb' hw, perform_writeReg_refused hb' hw v⟩

/-- A STATUS write clears DONE when bit 1 is set, and nothing else (R21). -/
theorem writeStatus_eq (v : Word) (s : State) :
    writeStatus v s = { s with status := { s.status with done := s.status.done && !v.getLsbD 1 } } := by
  unfold writeStatus
  cases v.getLsbD 1 <;> simp

/-- Settles O51: the write reaches STATUS. -/
theorem statusWriteClearsOnlyDone : Obligations.StatusWriteClearsOnlyDone := by
  intro s w rest hb
  calc step { s with pending := wr .status w :: rest }
      _ = .next (writeStatus w { s with pending := rest }) := step_wr hb .status w rest
      _ = _ := by rw [writeStatus_eq]

/-- A CTRL write without SRST writes IRQ_EN alone (R22). -/
theorem writeCtrl_of_not_srst {v : Word} (h : v.getLsbD 1 = false) (s : State) :
    writeCtrl v s = { s with ctrl := { irqEn := v.getLsbD 0 } } := by
  rw [writeCtrl, h]
  rfl

/-- Settles O52: the write reaches CTRL, and bit 1 = 0 keeps the rest; CTRL reads as its one stored bit. -/
theorem ctrlWriteSetsTheInterruptEnable : Obligations.CtrlWriteSetsTheInterruptEnable := by
  intro s w rest hb hw
  have hstep : step { s with pending := wr .ctrl w :: rest } =
      .next { s with pending := rest, ctrl := { irqEn := w.getLsbD 0 } } := by
    calc step { s with pending := wr .ctrl w :: rest }
        _ = .next (writeCtrl w { s with pending := rest }) := step_wr hb .ctrl w rest
        _ = _ := by rw [writeCtrl_of_not_srst hw]
  exact ⟨_, hstep, rfl, (BitVec.and_one_eq_setWidth_ofBool_getLsbD (x := w)).symm, rfl⟩

/-- Settles O56: while BUSY = 1 every action but the allowed ones is refused, and the allowed read is performed. -/
theorem accessWhileBusyIsRefused : Obligations.AccessWhileBusyIsRefused := by
  intro s rest hb
  refine ⟨fun act hpower hread => ?_, ?_⟩
  · have hnot : allowedWhileBusy act = false := by
      cases act with
      | readReg width off => exact beq_false_of_ne fun h => hread width (by rw [h]; rfl)
      | powerOnReset => exact absurd rfl hpower
      | _ => rfl
    simp [step_cons, perform, hnot, hb]
  · have hallowed : allowedWhileBusy (rd .status) = true := rfl
    simp only [step_cons, perform, hallowed, Bool.not_true, Bool.and_false]
    rfl

/-! ### The buffer bytes (R44) -/

/-- A host byte write changes no register (R44). -/
theorem writeBuffer_reg (b : Buffer) (a : Nat) (v : Byte) (s : State) (r : Reg) :
    (writeBuffer b a v s).reg r = s.reg r := by
  cases b <;> cases r <;> rfl

/-- A host byte write keeps what a later access to the buffers depends on. -/
theorem writeBuffer_keeps (b : Buffer) (a : Nat) (v : Byte) (s : State) :
    (writeBuffer b a v s).status = s.status ∧ (writeBuffer b a v s).pending = s.pending ∧
      ∀ b', bufferSize b' (writeBuffer b a v s) = bufferSize b' s := by
  cases b <;> exact ⟨rfl, rfl, fun _ => rfl⟩

/-- Settles O54: the write stores the one byte, so a later read returns it there and the old byte elsewhere. -/
theorem bufferByteHoldsHostWrites : Obligations.BufferByteHoldsHostWrites := by
  intro s b a v rest hb ha
  let t := writeBuffer b a.toNat v { s with pending := rest }
  obtain ⟨hstatus, hpending, hsize⟩ := writeBuffer_keeps b a.toNat v { s with pending := rest }
  have hbyte : ∀ b' x, t.bufferByte b' x = if b' = b ∧ x = a.toNat then v else s.bufferByte b' x :=
    bufferByte_writeBuffer { s with pending := rest } b a.toNat v
  refine ⟨t, perform_writeByte (s := { s with pending := rest }) hb ha v, hpending, hbyte,
    writeBuffer_reg b a.toNat v { s with pending := rest }, fun a' ha' => ?_⟩
  have hbusy : t.status.busy = false := by rw [hstatus]; exact hb
  have hexists : a'.toNat < bufferSize b t := by rw [hsize]; exact ha'
  have hread : t.bufferByte b a'.toNat = if a' = a then v else s.bufferByte b a'.toNat := by
    simp only [hbyte, true_and, BitVec.toNat_inj]
  rw [step_cons, perform_readByte (s := { t with pending := rest }) hbusy hexists, ← hread]
  cases b <;> rfl

/-! ### The host sequences (R71, R72) -/

/-- A run of one step is the step (R15). -/
theorem run_one (s : State) : core.run 1 s = step s := by
  cases h : step s with
  | next t => exact run_succ h
  | fault why =>
    have hcore : core.step s = .fault why := h
    simp only [Host.Core.run, hcore]
    rfl
  | refused why =>
    have hcore : core.step s = .refused why := h
    simp only [Host.Core.run, hcore]
    rfl

/-- `cmd` (R71) runs its command. -/
theorem step_cmd {s : State} (hb : s.status.busy = false) (i : Instr) (rest : List HostAction) :
    step { s with pending := cmd i :: rest } = exec i { s with pending := rest } :=
  (step_wr hb .cmd (encode i) rest).trans (issueWord_of_decode (decode_encode i) _)

/-- A run whose last action is `cmd` (R71). -/
theorem run_last_cmd {s : State} (hb : s.status.busy = false) (i : Instr) (rest : List HostAction) :
    core.run 1 { s with pending := cmd i :: rest } = exec i { s with pending := rest } :=
  (run_one _).trans (step_cmd hb i rest)

/-- `crc32 a, n` (R72) on a range that exists returns the CRC of the range (R79, R83). -/
theorem run_pseudoCrc32 {s : State} (hb : s.status.busy = false) {a n : Word}
    (hin : a.toNat + n.toNat ≤ s.params.ibufSize.bytes) (rest : List HostAction) :
    ∃ t, core.run 5 { s with pending := pseudoCrc32 a n ++ rest } = .next t ∧
      t.lastRead = some (.word (crc32 (memRead s a.toNat n.toNat))) ∧ t.pending = rest := by
  let s₁ : State := { s with src := a, cnt := n, pending := [cmd .crcInit, cmd .crcBuf, rd .crcOut] ++ rest }
  let s₂ := succeeded (encode .crcInit)
    { s₁ with crcState := 0xFFFFFFFF, pending := [cmd .crcBuf, rd .crcOut] ++ rest }
  let s₃ := succeeded (encode .crcBuf)
    { s₂ with crcState := crcFeed 0xFFFFFFFF (memRead s a.toNat n.toNat), pending := [rd .crcOut] ++ rest }
  have hwrites : core.run 5 { s with pending := pseudoCrc32 a n ++ rest } = core.run 3 s₁ :=
    (run_succ (step_wr hb .src a _)).trans (run_succ (step_wr (s := { s with src := a }) hb .cnt n _))
  have hinit : step s₁ = .next s₂ := (step_cmd (s := s₁) hb .crcInit _).trans (exec_crcInit_eq_succeeded _)
  have hfeed : step s₂ = .next s₃ :=
    (step_cmd (s := s₂) rfl .crcBuf _).trans
      (exec_crcBuf_of_inI (s := { s₂ with pending := [rd .crcOut] ++ rest }) hin)
  have hread : core.run 1 s₃ = .next { s₃ with
      pending := rest, lastRead := some (.word (crc32 (memRead s a.toNat n.toNat))) } :=
    (run_one s₃).trans (step_rd (s := s₃) rfl .crcOut rest)
  exact ⟨_, hwrites.trans ((run_succ hinit).trans ((run_succ hfeed).trans hread)), rfl, rfl⟩

/-- Settles O58: each sequence sets its operand registers in the host's order and then issues its command. -/
theorem pseudoInstructionsExpandToTheirCommands : Obligations.PseudoInstructionsExpandToTheirCommands := by
  intro s rest hb
  refine ⟨fun a n hin => run_pseudoCrc32 hb hin rest, fun v => ?_, fun tag a n => ?_, ?_, fun n => ?_, fun tag => ?_⟩
  · exact (run_succ (step_wr hb .val v _)).trans (run_last_cmd (s := { s with val := v }) hb .stBe32 rest)
  · exact (run_succ (step_wr hb .val (be32 tag) _)).trans
      ((run_succ (step_wr (s := { s with val := be32 tag }) hb .src a _)).trans
        ((run_succ (step_wr (s := { s with val := be32 tag, src := a }) hb .cnt n _)).trans
          (run_last_cmd (s := { s with val := be32 tag, src := a, cnt := n }) hb .chkEmit rest)))
  · exact (run_succ (step_wr hb .optr 0 _)).trans (run_last_cmd (s := { s with optr := 0 }) hb .sigWr rest)
  · exact (run_succ (step_wr hb .ibufLen n _)).trans (run_last_cmd (s := { s with ibufLen := n }) hb .pngParse rest)
  · exact (run_succ (step_wr hb .val (be32 tag) _)).trans
      (run_last_cmd (s := { s with val := be32 tag }) hb .typeChk rest)

end Sys2Proof.Machine
end

section
/-! PROOFS. The CRC generator's laws (41_crc.md R77 to R80), the letters (00_scope.md R13, 42_type_tag.md R87), and the
bounds of every command (20_memory.md R54). -/

namespace Sys2Proof.Machine

/-! ### The CRC generator -/

/-- What is left of a register when its low byte is taken out: eight shifts of it are a plain shift (R78). -/
theorem crcShifts_eight (x : Word) :
    crcShifts 8 x = (x >>> 8) ^^^ crcShifts 8 (zext32 (x.extractLsb' 0 8)) := by
  let low : Word := zext32 (x.extractLsb' 0 8)
  have hlow : ∀ i, low.getLsbD i = (decide (i < 8) && x.getLsbD i) := fun i => by
    by_cases hi : i < 8
    · simp [low, zext32, hi, show i < 32 by omega]
    · simp [low, zext32, hi]
  have hhigh : crcShifts 8 (x ^^^ low) = (x ^^^ low) >>> 8 :=
    crcShifts_high 8 _ fun i hi => by
      simp only [BitVec.getLsbD_xor, hlow, hi, decide_true, Bool.true_and, Bool.xor_self]
  have hshift : (x ^^^ low) >>> 8 = x >>> 8 := by
    refine BitVec.eq_of_getLsbD_eq fun i _ => ?_
    rw [BitVec.getLsbD_ushiftRight, BitVec.getLsbD_ushiftRight, BitVec.getLsbD_xor, hlow]
    simp
  have hsplit : x = (x ^^^ low) ^^^ low := by rw [BitVec.xor_assoc, BitVec.xor_self, BitVec.xor_zero]
  calc crcShifts 8 x
      _ = crcShifts 8 (x ^^^ low) ^^^ crcShifts 8 low := by rw [← crcShifts_xor, ← hsplit]
      _ = (x >>> 8) ^^^ crcShifts 8 low := by rw [hhigh, hshift]

/-- A table entry is eight shifts of its index (R78). -/
theorem crcStep_zero (b : Byte) : crcStep 0 b = crcShifts 8 (zext32 b) := congrArg (crcShifts 8) BitVec.zero_xor

/-- Settles O22: a byte's update is eight shifts of the register with the byte in it, whose high part is the register's
and whose low byte selects the table entry. -/
theorem crcStepHasATableForm : Obligations.CrcStepHasATableForm := by
  intro c b
  have hbyte : zext32 b >>> 8 = 0#32 := by
    refine BitVec.eq_of_getLsbD_eq fun i _ => ?_
    simp [zext32]
  calc crcStep c b
      _ = ((c ^^^ zext32 b) >>> 8) ^^^ crcShifts 8 (zext32 ((c ^^^ zext32 b).extractLsb' 0 8)) := crcShifts_eight _
      _ = (c >>> 8) ^^^ crcStep 0 ((c ^^^ zext32 b).extractLsb' 0 8) := by
        rw [BitVec.ushiftRight_xor_distrib, hbyte, BitVec.xor_zero, crcStep_zero]

/-- Settles O23: the registers differ after the byte and stay different over the equal bytes after it. -/
theorem oneByteChangeChangesTheCrc : Obligations.OneByteChangeChangesTheCrc := by
  intro before after b b' hne heq
  have hfeed : crcFeed 0xFFFFFFFF (before ++ b :: after) = crcFeed 0xFFFFFFFF (before ++ b' :: after) :=
    (BitVec.xor_left_inj _).1 heq
  simp only [crcFeed_append, crcFeed_cons] at hfeed
  exact hne (crcStep_inj_right (crcFeed_inj hfeed))

/-- Settles O24: the named values are computed. -/
theorem crcReferenceValues : Obligations.CrcReferenceValues :=
  ⟨by decide +kernel, by decide +kernel, rfl, by decide +kernel, by decide, by decide⟩

/-! ### The letters -/

/-- A letter is one of the two cases (R13). -/
theorem isAlpha_eq_or (b : Byte) : isAlpha b = (isUpper b || isLower b) := rfl

/-- Settles O25: the two ranges as numbers; what is no letter is in neither. -/
theorem lettersAreTheAsciiRanges : Obligations.LettersAreTheAsciiRanges := by
  intro b
  refine ⟨isAlpha_eq_true_iff b, by simp [isUpper, BitVec.le_def], by simp [isLower, BitVec.le_def], fun h => ?_⟩
  rwa [isAlpha_eq_or, Bool.or_eq_false_iff] at h

/-- On a letter the case is bit 5 (R87). -/
theorem case_of_isAlpha {b : Byte} (h : isAlpha b = true) :
    isUpper b = !b.getLsbD 5 ∧ isLower b = b.getLsbD 5 := by
  revert b
  decide

/-- Settles O28: the flags are cases of the tag's letters, and a letter's case is bit 5. -/
theorem caseIsBitFiveOfALetter : Obligations.CaseIsBitFiveOfALetter := by
  refine ⟨fun b h => ?_, fun t h0 h1 h2 h3 => ?_⟩
  · obtain ⟨hupper, hlower⟩ := case_of_isAlpha h
    rw [hupper, hlower, Bool.not_eq_true']
    exact ⟨Iff.rfl, Iff.rfl⟩
  · obtain ⟨-, hcritical, hpublic, hreserved, hsafe, -, -⟩ := tagFlags_bits t
    exact ⟨hcritical.trans (case_of_isAlpha h0).1, hpublic.trans (case_of_isAlpha h1).1,
      hreserved.trans (case_of_isAlpha h2).1, hsafe.trans (case_of_isAlpha h3).2⟩

/-! ### Bounds (R54) -/

/-- A command with a range that does not exist raises BufferBounds(0) and writes nothing, but for PNG_PARSE, which
clears CHUNK_COUNT (R54; log entry 17). -/
theorem exec_of_not_rangesExist {i : Instr} {s : State} (h : ¬ rangesExist s i) :
    exec i s = .next (failed (encode i) .bufferBounds 0
      { s with chunkCount := if i = .pngParse then 0 else s.chunkCount }) := by
  cases i with
  | nop | crcInit | crcByte _ | crcW32 | typeChk => exact absurd trivial h
  | crcBuf => exact exec_crcBuf_of_not_inI h
  | ldBe32 => exact exec_ldBe32_of_not_inI h
  | stBe32 => exact exec_stBe32_of_not_inO h
  | copy => exact exec_copy_of_not_inI_or_not_inO h
  | chkParse => exact exec_chkParse_of_not_inI h
  | chkEmit => exact exec_chkEmit_of_not_inI_or_not_inO h
  | sigChk => exact exec_sigChk_of_size_lt (Nat.not_le.1 h)
  | sigWr => exact exec_sigWr_of_not_inO h
  | chkNext =>
    have hout : s.params.ibufSize.bytes < s.ibufLen.toNat ∨ s.ibufLen.toNat < s.cursor.toNat :=
      (not_and_or.1 h).imp Nat.not_le.1 Nat.not_le.1
    exact exec_chkNext_of_size_lt_or_lt_cursor hout
  | pngParse =>
    exact exec_of_rule_raise (u := { s with chunkCount := 0 })
      (rulePngParse_bounds (s := issue (encode .pngParse) s) (Nat.not_le.1 h))

/-- A part of a rule that does not raise BufferBounds. -/
abbrev Effect.NoBounds (e : Effect) : Prop := e.Sat (fun _ => True) fun k _ _ => k ≠ .bufferBounds

theorem checkTag_noBounds (t : Quad) (s : State) : (checkTag t s).NoBounds := by
  rw [checkTag_eq]
  cases firstBadByte t with
  | some b => exact nofun
  | none => trivial

theorem parseSlice_noBounds (a n : Nat) (s : State) : (parseSlice a n s).NoBounds := by
  rw [parseSlice_eq]
  cases firstBadByte (memRead4 s (a + 4)) with
  | some b => exact nofun
  | none =>
    dsimp only
    split
    · exact nofun
    split
    · exact nofun
    · trivial

theorem walkLoop_noBounds (e fuel p count : Nat) (s : State) : (walkLoop e fuel p count s).NoBounds := by
  have hsat := walkLoop_sat e fuel p count s
  cases hw : walkLoop e fuel p count s with
  | done t => trivial
  | raise k v t =>
    rw [hw] at hsat
    obtain ⟨-, hk⟩ := hsat
    rintro rfl
    exact absurd hk (by decide)

/-- What follows a part that raises no BufferBounds and then returns does not raise it either. -/
theorem Effect.NoBounds.andThen_done {e : Effect} (h : e.NoBounds) (f : State → State) :
    (e.andThen fun t => .done (f t)).NoBounds := by
  cases e with
  | done t => trivial
  | raise k v t => exact h

/-- A command whose ranges exist does not raise BufferBounds (R54). -/
theorem rule_noBounds {i : Instr} {s : State} (h : rangesExist s i) : (ruleOf i s).NoBounds := by
  cases i with
  | nop | crcInit | crcByte _ | crcW32 => trivial
  | typeChk => exact checkTag_noBounds _ _
  | crcBuf => rw [ruleOf, ruleCrcBuf_done h]; trivial
  | ldBe32 => rw [ruleOf, ruleLdBe32_done h]; trivial
  | stBe32 => rw [ruleOf, ruleStBe32_done h]; trivial
  | copy => rw [ruleOf, ruleCopy_done h.1 h.2]; trivial
  | sigWr => rw [ruleOf, ruleSigWr_done h]; trivial
  | chkParse =>
    by_cases hshort : s.cnt.toNat < 12
    · rw [ruleOf, ruleChkParse_truncated h hshort]
      exact nofun
    · rw [ruleOf, ruleChkParse_slice h hshort]
      exact parseSlice_noBounds _ _ _
  | chkEmit =>
    cases hbad : firstBadByte (be32bytes s.val) with
    | some b =>
      rw [ruleOf, ruleChkEmit_invalid h.1 h.2 hbad]
      exact nofun
    | none =>
      rw [ruleOf, ruleChkEmit_done h.1 h.2 hbad]
      trivial
  | sigChk =>
    cases hk : sigError s s.ibufLen.toNat with
    | some k =>
      rw [ruleOf, ruleSigChk_bad (Nat.not_lt.2 h) hk]
      exact nofun
    | none =>
      rw [ruleOf, ruleSigChk_done (Nat.not_lt.2 h) hk]
      trivial
  | chkNext =>
    have hin : ¬ (s.params.ibufSize.bytes < s.ibufLen.toNat ∨ s.ibufLen.toNat < s.cursor.toNat) :=
      not_or.2 (h.imp Nat.not_lt.2 Nat.not_lt.2)
    by_cases hend : s.cursor.toNat = s.ibufLen.toNat
    · rw [ruleOf, ruleChkNext_end hin hend]
      trivial
    by_cases hframed : framed s s.ibufLen.toNat s.cursor.toNat
    · rw [ruleOf, ruleChkNext_framed hin hframed]
      exact (parseSlice_noBounds _ _ _).andThen_done _
    · rw [ruleOf, ruleChkNext_truncated hin hend hframed]
      exact nofun
  | pngParse =>
    cases hk : sigError s s.ibufLen.toNat with
    | some k =>
      rw [ruleOf, rulePngParse_bad (Nat.not_lt.2 h) hk]
      exact nofun
    | none =>
      rw [ruleOf, rulePngParse_walk (Nat.not_lt.2 h) hk]
      exact walkLoop_noBounds _ _ _ _ _

/-- A command whose ranges exist ends with some other status than BufferBounds (R54). -/
theorem exec_of_rangesExist {i : Instr} {s : State} (h : rangesExist s i) :
    ∃ t, exec i s = .next t ∧ t.status ≠ Status.failure .bufferBounds := by
  have hissue : rangesExist (issue (encode i) s) i := by cases i <;> exact h
  have hbounds := rule_noBounds hissue
  have hsat := rule_sat i (issue (encode i) s)
  refine ⟨_, exec_eq i s, fun hst => ?_⟩
  cases he : ruleOf i (issue (encode i) s) with
  | done u =>
    rw [he] at hst hsat
    obtain ⟨eoi, hsucc, -⟩ := RuleDone.complete_status hsat
    exact Status.failure_ne_success _ eoi (hst.symm.trans hsucc)
  | raise k v u =>
    rw [he] at hst hbounds
    exact hbounds (ErrorKind.code_inj (congrArg Status.errcode hst))

/-- An empty COPY changes nothing but the report, OPTR included (R94). -/
theorem exec_copy_of_cnt_eq_zero {s : State} (hI : inI s s.src.toNat 0) (hO : inO s s.optr.toNat 0) (hcnt : s.cnt = 0) :
    exec .copy s = .next (succeeded (encode .copy) s) := by
  have hzero : s.cnt.toNat = 0 := by rw [hcnt]; rfl
  rw [exec_copy_of_inI_of_inO (by rwa [hzero]) (by rwa [hzero]), hzero, Nat.add_zero, toWord_toNat]
  rfl

/-- Settles O30: the bounds check of each command is its row of `rangesExist`; an empty range at the end of a buffer
exists. -/
theorem bufferBoundsExactlyOnAbsentRanges : Obligations.BufferBoundsExactlyOnAbsentRanges :=
  ⟨fun _ _ => ⟨exec_of_not_rangesExist, exec_of_rangesExist⟩,
    fun _ hsrc hoptr hcnt => exec_copy_of_cnt_eq_zero (Nat.le_of_eq hsrc) (Nat.le_of_eq hoptr) hcnt⟩

end Sys2Proof.Machine
end

section
/-! PROOFS. The laws of 43_chunk.md section 4: a serialized chunk in IBUF is what the slice parser accepts, so emit and
parse undo each other (R97), and a change of one byte of the type or the data is caught (90_conflicts.md C2). -/

namespace Sys2Proof.Machine

/-! ### A serialized chunk in IBUF (R90) -/

theorem Quad.toList_inj {q q' : Quad} (h : q.toList = q'.toList) : q = q' := by
  obtain ⟨a, b, c, d⟩ := q
  obtain ⟨a', b', c', d'⟩ := q'
  simpa [Quad.toList] using h

/-- Two reads of one length agree exactly when their bytes do (R9). -/
theorem memRead_eq_iff {s t : State} {a b n : Nat} :
    memRead s a n = memRead t b n ↔ ∀ i, i < n → s.ibufByte (a + i) = t.ibufByte (b + i) := by
  simp [memRead]

/-- A chunk's bytes are its length field, its type, its data and its CRC field (R90). -/
theorem memRead_chunk (s : State) (p n : Nat) :
    memRead s p (12 + n) =
      (memRead4 s p).toList ++ (memRead4 s (p + 4)).toList ++ memRead s (p + 8) n ++
        (memRead4 s (p + 8 + n)).toList := by
  rw [show 12 + n = 4 + 4 + n + 4 by omega, memRead_add, memRead_add, memRead_add]
  simp only [memRead4_toList, Nat.add_assoc, Nat.reduceAdd]

/-- IBUF holds a serialized chunk at `p` exactly when the four parts of R90 lie there. -/
theorem memRead_eq_serializeChunk_iff {s : State} {p : Nat} {t : Quad} {d : List Byte} :
    memRead s p (12 + d.length) = serializeChunk t d ↔
      memRead4 s p = be32bytes (toWord d.length) ∧ memRead4 s (p + 4) = t ∧ memRead s (p + 8) d.length = d ∧
        memRead4 s (p + 8 + d.length) = be32bytes (crc32 (t.toList ++ d)) := by
  rw [memRead_chunk, serializeChunk]
  constructor
  · intro h
    obtain ⟨hfront, hcrc⟩ := List.append_inj' h (by simp)
    obtain ⟨hhead, hdata⟩ := List.append_inj' hfront (by simp)
    obtain ⟨hlen, htag⟩ := List.append_inj' hhead (by simp)
    exact ⟨Quad.toList_inj hlen, Quad.toList_inj htag, hdata, Quad.toList_inj hcrc⟩
  · rintro ⟨hlen, htag, hdata, hcrc⟩
    rw [hlen, htag, hdata, hcrc]

section
variable {s : State} {p : Nat} {t : Quad} {d : List Byte} (h : memRead s p (12 + d.length) = serializeChunk t d)
include h

/-- The declared length of a serialized chunk is the length of its data (R90). -/
theorem declaredLength_of_chunk (hd : d.length < 2 ^ 32) : declaredLength s p = d.length := by
  obtain ⟨hlen, -, -, -⟩ := memRead_eq_serializeChunk_iff.1 h
  rw [declaredLength, hlen, be32_be32bytes, toNat_toWord hd]

/-- The seven parse registers of a serialized chunk (R90, R91). -/
theorem writeParse_of_chunk :
    writeParse p (12 + d.length) s = { s with
      chunkLen := toWord d.length
      chunkType := be32 t
      chunkCrc := crc32 (t.toList ++ d)
      calcCrc := crc32 (t.toList ++ d)
      dataOff := toWord (p + 8)
      dataLen := toWord d.length
      typeFlags := tagFlags t } := by
  obtain ⟨hlen, htag, hdata, hcrc⟩ := memRead_eq_serializeChunk_iff.1 h
  have hend : p + (12 + d.length) - 4 = p + 8 + d.length := by omega
  simp only [writeParse, Nat.add_sub_cancel_left, hend, hlen, htag, hdata, hcrc, be32_be32bytes]

end

/-- A slice of `n` bytes whose CRC and length fields are good is a serialized chunk (R90, R91). -/
theorem memRead_eq_serializeChunk_of_checks {s : State} {a n : Nat} (hn : 12 ≤ n)
    (hcrc : (writeParse a n s).chunkCrc = (writeParse a n s).calcCrc) (hlen : declaredLength s a = n - 12) :
    memRead s a n = serializeChunk (memRead4 s (a + 4)) (memRead s (a + 8) (n - 12)) := by
  obtain ⟨m, rfl⟩ := Nat.exists_eq_add_of_le hn
  rw [Nat.add_sub_cancel_left] at hlen ⊢
  have hend : a + (12 + m) - 4 = a + 8 + m := by omega
  rw [writeParse_chunkCrc, writeParse_calcCrc, hend, Nat.add_sub_cancel_left] at hcrc
  have hchunk := @memRead_eq_serializeChunk_iff s a (memRead4 s (a + 4)) (memRead s (a + 8) m)
  rw [memRead_length] at hchunk
  refine hchunk.2 ⟨?_, rfl, rfl, ?_⟩
  · rw [← hlen, declaredLength, toWord_toNat, be32bytes_be32]
  · rw [← hcrc, be32bytes_be32]

/-! ### What a success of CHK_PARSE and of CHK_EMIT says (R95, R96) -/

/-- CHK_PARSE succeeds on a serialized chunk with an alphabetic tag (R91, R95). -/
theorem exec_chkParse_of_chunk {s : State} {t : Quad} {d : List Byte}
    (h : memRead s s.src.toNat (12 + d.length) = serializeChunk t d) (hgood : firstBadByte t = none)
    (hcnt : s.cnt.toNat = 12 + d.length) (hin : inI s s.src.toNat s.cnt.toNat) :
    exec .chkParse s = .next (succeeded (encode .chkParse) (writeParse s.src.toNat s.cnt.toNat s)) := by
  have hword : s.cnt.toNat < 2 ^ 32 := s.cnt.isLt
  have hd : d.length < 2 ^ 32 := by omega
  obtain ⟨-, htag, -, -⟩ := memRead_eq_serializeChunk_iff.1 h
  refine exec_chkParse_of_parseSlice_done hin (by omega) (parseSlice_eq_done ?_ ?_ ?_)
  · rw [issue_memRead4, htag, hgood]
  · rw [hcnt, writeParse_of_chunk (s := issue (encode .chkParse) s) h]
  · rw [hcnt, declaredLength_of_chunk (s := issue (encode .chkParse) s) h hd, Nat.add_sub_cancel_left]

/-- When CHK_PARSE succeeds, the slice exists, has its 12 bytes and an alphabetic type, and its CRC and length fields
are good (R91, R95). -/
theorem chkParse_accepted {s t : State} (h : exec .chkParse s = .next t) (herr : t.status.err = false) :
    inI s s.src.toNat s.cnt.toNat ∧ 12 ≤ s.cnt.toNat ∧ firstBadByte (memRead4 s (s.src.toNat + 4)) = none ∧
      (writeParse s.src.toNat s.cnt.toNat s).chunkCrc = (writeParse s.src.toNat s.cnt.toNat s).calcCrc ∧
      declaredLength s s.src.toNat = s.cnt.toNat - 12 ∧
      t = succeeded (encode .chkParse) (writeParse s.src.toNat s.cnt.toNat s) := by
  have hraise : ∀ {k info u}, exec .chkParse s ≠ .next (failed (encode .chkParse) k info u) := fun hf => by
    rw [h] at hf
    cases hf
    exact Bool.noConfusion herr
  have hin : inI s s.src.toNat s.cnt.toNat := by_contra fun hout => hraise (exec_chkParse_of_not_inI hout)
  have hlong : ¬ s.cnt.toNat < 12 := fun hshort => hraise (exec_chkParse_of_lt_twelve hin hshort)
  have hgood : firstBadByte (memRead4 s (s.src.toNat + 4)) = none :=
    Option.eq_none_iff_forall_ne_some.2 fun _ hbad =>
      hraise (exec_chkParse_of_parseSlice_raise hin hlong (parseSlice_eq_invalidByte hbad))
  have hcrc : (writeParse s.src.toNat s.cnt.toNat s).chunkCrc = (writeParse s.src.toNat s.cnt.toNat s).calcCrc :=
    by_contra fun hne => hraise (exec_chkParse_of_parseSlice_raise hin hlong (parseSlice_eq_crcMismatch hgood hne))
  have hlen : declaredLength s s.src.toNat = s.cnt.toNat - 12 :=
    by_contra fun hne =>
      hraise (exec_chkParse_of_parseSlice_raise hin hlong (parseSlice_eq_lengthMismatch hgood hcrc hne))
  have hdone := exec_chkParse_of_parseSlice_done hin hlong (parseSlice_eq_done hgood hcrc hlen)
  rw [h] at hdone
  cases hdone
  exact ⟨hin, Nat.not_lt.1 hlong, hgood, hcrc, hlen, rfl⟩

/-- When CHK_EMIT succeeds, both ranges exist and the tag is alphabetic, and OBUF holds the serialized chunk (R96). -/
theorem chkEmit_succeeded {s t : State} (h : exec .chkEmit s = .next t) (herr : t.status.err = false) :
    inI s s.src.toNat s.cnt.toNat ∧ inO s s.optr.toNat (12 + s.cnt.toNat) ∧ firstBadByte (be32bytes s.val) = none ∧
      t = succeeded (encode .chkEmit)
        { memWrite s s.optr.toNat (serializeChunk (be32bytes s.val) (memRead s s.src.toNat s.cnt.toNat)) with
          typeFlags := tagFlags (be32bytes s.val)
          calcCrc := crc32 ((be32bytes s.val).toList ++ memRead s s.src.toNat s.cnt.toNat)
          optr := toWord (s.optr.toNat + 12 + s.cnt.toNat) } := by
  have hraise : ∀ {k info u}, exec .chkEmit s ≠ .next (failed (encode .chkEmit) k info u) := fun hf => by
    rw [h] at hf
    cases hf
    exact Bool.noConfusion herr
  obtain ⟨hI, hO⟩ : inI s s.src.toNat s.cnt.toNat ∧ inO s s.optr.toNat (12 + s.cnt.toNat) :=
    by_contra fun hout => hraise (exec_chkEmit_of_not_inI_or_not_inO hout)
  have hgood : firstBadByte (be32bytes s.val) = none :=
    Option.eq_none_iff_forall_ne_some.2 fun _ hbad => hraise (exec_chkEmit_of_firstBadByte_eq_some hI hO hbad)
  have hdone := exec_chkEmit_of_firstBadByte_eq_none hI hO hgood
  rw [h] at hdone
  cases hdone
  exact ⟨hI, hO, hgood, rfl⟩

/-- A copy into IBUF of the range that MemWrite wrote in OBUF reads as the sequence (R9). -/
theorem memRead_of_copy {s u : State} {a b : Nat} {bs : List Byte}
    (hcopy : ∀ i, i < bs.length → u.ibufByte (b + i) = (memWrite s a bs).obufByte (a + i)) :
    memRead u b bs.length = bs := by
  calc memRead u b bs.length
      _ = (List.range bs.length).map (fun i => (memWrite s a bs).obufByte (a + i)) :=
        List.map_congr_left fun i hi => hcopy i (List.mem_range.1 hi)
      _ = bs := map_obufByte_memWrite s a bs

/-- Settles O36: the copy is a serialized chunk in IBUF, whose parse registers are those it was emitted with. -/
theorem emittedChunkParsesBack : Obligations.EmittedChunkParsesBack := by
  intro s t u b hemit herr hcopy hin hsrc hcnt
  obtain ⟨-, -, hgood, rfl⟩ := chkEmit_succeeded hemit herr
  let d := memRead s s.src.toNat s.cnt.toNat
  have hd : d.length = s.cnt.toNat := memRead_length _ _ _
  have hchunk : memRead u b (12 + d.length) = serializeChunk (be32bytes s.val) d := by
    rw [← serializeChunk_length (be32bytes s.val) d]
    exact memRead_of_copy (s := s) (a := s.optr.toNat) (by rw [serializeChunk_length, hd]; exact hcopy)
  obtain ⟨-, -, hdata, -⟩ := memRead_eq_serializeChunk_iff.1 hchunk
  have hparse := exec_chkParse_of_chunk (by rwa [hsrc]) hgood (by rw [hcnt, hd]) (by rwa [hsrc, hcnt])
  have hoff : (toWord (b + 8)).toNat = b + 8 := ibuf_toNat (p := u.params) (by omega)
  rw [hsrc, hcnt, ← hd, writeParse_of_chunk hchunk, hd, toWord_toNat, be32_be32bytes] at hparse
  refine ⟨_, hparse, rfl, rfl, rfl, rfl, rfl, rfl, rfl, rfl, rfl, fun i hi => ?_⟩
  rw [hd] at hdata
  calc u.ibufByte ((toWord (b + 8)).toNat + i)
      _ = u.ibufByte (b + 8 + i) := by rw [hoff]
      _ = s.ibufByte (s.src.toNat + i) := memRead_eq_iff.1 hdata i hi

/-- Settles O37: an accepted slice is a serialized chunk, and CHK_EMIT writes that chunk from the parse registers. -/
theorem parsedChunkEmitsBack : Obligations.ParsedChunkEmitsBack := by
  intro s t o hparse herr hout
  obtain ⟨hin, hlong, hgood, hcrc, hlen, rfl⟩ := chkParse_accepted hparse herr
  have hchunk := memRead_eq_serializeChunk_of_checks hlong hcrc hlen
  have hoff : (toWord (s.src.toNat + 8)).toNat = s.src.toNat + 8 := ibuf_toNat (p := s.params) (by omega)
  have hcnt : (toWord (s.cnt.toNat - 12)).toNat = s.cnt.toNat - 12 := ibuf_toNat (p := s.params) (by omega)
  let r : State := { succeeded (encode .chkParse) (writeParse s.src.toNat s.cnt.toNat s) with
    val := be32 (memRead4 s (s.src.toNat + 4))
    src := toWord (s.src.toNat + 8)
    cnt := toWord (s.cnt.toNat - 12)
    optr := o }
  have hI : inI r r.src.toNat r.cnt.toNat := by
    change (toWord (s.src.toNat + 8)).toNat + (toWord (s.cnt.toNat - 12)).toNat ≤ s.params.ibufSize.bytes
    omega
  have hO : inO r r.optr.toNat (12 + r.cnt.toNat) := by
    change o.toNat + (12 + (toWord (s.cnt.toNat - 12)).toNat) ≤ s.params.obufSize.bytes
    omega
  have hbytes : serializeChunk (be32bytes r.val) (memRead r r.src.toNat r.cnt.toNat) =
      memRead s s.src.toNat s.cnt.toNat := by
    change serializeChunk (be32bytes (be32 (memRead4 s (s.src.toNat + 4))))
      (memRead s (toWord (s.src.toNat + 8)).toNat (toWord (s.cnt.toNat - 12)).toNat) = _
    rw [be32bytes_be32, hoff, hcnt, hchunk]
  have hemit := exec_chkEmit_of_firstBadByte_eq_none hI hO (by rw [be32bytes_be32, hgood])
  rw [hbytes] at hemit
  refine ⟨_, hemit, rfl, ?_, fun i hi => ?_⟩
  · change (toWord (o.toNat + 12 + (toWord (s.cnt.toNat - 12)).toNat)).toNat = o.toNat + s.cnt.toNat
    rw [hcnt, show o.toNat + 12 + (s.cnt.toNat - 12) = o.toNat + s.cnt.toNat by omega, optr_toNat hout]
  · have hi' : i < (memRead s s.src.toNat s.cnt.toNat).length := by rwa [memRead_length]
    exact (memWrite_obufByte_of_inside r o.toNat _ i hi').trans (memRead_getElem ..)

/-! ### A one-byte change of an accepted slice (C2, R80) -/

/-- The state in which the host has changed one byte of IBUF (R44). -/
def mutated (s : State) (y : Nat) (v : Byte) : State := { s with ibuf := Memory.store s.ibuf y v }

section
variable (s : State) (y : Nat) (v : Byte)

theorem mutated_ibufByte (x : Nat) : (mutated s y v).ibufByte x = if x = y then v else s.ibufByte x :=
  (bufferByte_writeBuffer s .ibuf y v .ibuf x).trans (by simp [State.bufferByte])

variable {s y v}

/-- A read that the changed byte does not lie in is unchanged. -/
theorem mutated_memRead_of_outside {a n : Nat} (h : y < a ∨ a + n ≤ y) : memRead (mutated s y v) a n = memRead s a n :=
  memRead_congr fun i hi => by rw [mutated_ibufByte, if_neg (by omega)]

theorem mutated_memRead4_of_outside {a : Nat} (h : y < a ∨ a + 4 ≤ y) : memRead4 (mutated s y v) a = memRead4 s a :=
  Quad.toList_inj (by simpa only [memRead4_toList] using mutated_memRead_of_outside h)

/-- A read around its byte number `k` (R9). -/
theorem memRead_around (s : State) (a k m : Nat) :
    memRead s a (k + (1 + m)) = memRead s a k ++ s.ibufByte (a + k) :: memRead s (a + k + 1) m := by
  rw [memRead_add, memRead_add]
  rfl

/-- The CRC of a range changes with any one byte of it (R80). -/
theorem crc32_mutated_ne {a n : Nat} (hin : a ≤ y ∧ y < a + n) (hne : v ≠ s.ibufByte y) :
    crc32 (memRead (mutated s y v) a n) ≠ crc32 (memRead s a n) := by
  obtain ⟨k, rfl⟩ := Nat.exists_eq_add_of_le hin.1
  obtain ⟨m, rfl⟩ : ∃ m, n = k + (1 + m) := ⟨n - k - 1, by omega⟩
  rw [memRead_around, memRead_around, mutated_memRead_of_outside (by omega), mutated_memRead_of_outside (by omega),
    mutated_ibufByte, if_pos rfl]
  exact oneByteChangeChangesTheCrc _ _ _ _ hne

end

/-- The bytes of a tag in IBUF (R85). -/
theorem mem_memRead4_toList {s : State} {a : Nat} {b : Byte} :
    b ∈ (memRead4 s a).toList ↔ ∃ i, i < 4 ∧ s.ibufByte (a + i) = b := by
  simp [memRead4_toList, memRead]

theorem firstBadByte_eq_none_iff_forall {t : Quad} : firstBadByte t = none ↔ ∀ b ∈ t.toList, isAlpha b = true := by
  simp [firstBadByte]

/-- The only byte of a tag that is no letter is the one reported (R85). -/
theorem firstBadByte_of_unique {t : Quad} {b : Byte} (hmem : b ∈ t.toList) (hbad : isAlpha b = false)
    (honly : ∀ c ∈ t.toList, c = b ∨ isAlpha c = true) : firstBadByte t = some b := by
  cases h : firstBadByte t with
  | none => exact absurd ((firstBadByte_eq_none_iff_forall.1 h b hmem).symm.trans hbad) Bool.noConfusion
  | some c =>
    have hc : isAlpha c = false := by simpa using List.find?_some h
    rcases honly c (List.mem_of_find?_eq_some h) with rfl | hgood
    · rfl
    · exact absurd (hgood.symm.trans hc) Bool.noConfusion

/-- The tag after one byte of the slice has changed: the new byte is reported if it is a type byte and no letter, and
otherwise the tag is alphabetic as before (R85). -/
theorem firstBadByte_mutated {s : State} {a j : Nat} {v : Byte} (hgood : firstBadByte (memRead4 s (a + 4)) = none)
    (hj : 4 ≤ j) :
    (j < 8 ∧ isAlpha v = false → firstBadByte (memRead4 (mutated s (a + j) v) (a + 4)) = some v) ∧
    (¬ (j < 8 ∧ isAlpha v = false) → firstBadByte (memRead4 (mutated s (a + j) v) (a + 4)) = none) := by
  have hold : ∀ i, i < 4 → isAlpha (s.ibufByte (a + 4 + i)) = true := fun i hi =>
    firstBadByte_eq_none_iff_forall.1 hgood _ (mem_memRead4_toList.2 ⟨i, hi, rfl⟩)
  have hbyte : ∀ c ∈ (memRead4 (mutated s (a + j) v) (a + 4)).toList, (j < 8 ∧ c = v) ∨ isAlpha c = true := by
    intro c hc
    obtain ⟨i, hi, rfl⟩ := mem_memRead4_toList.1 hc
    rw [mutated_ibufByte]
    split
    · exact .inl ⟨by omega, rfl⟩
    · exact .inr (hold i hi)
  constructor
  · rintro ⟨hj8, hbad⟩
    have hmem : v ∈ (memRead4 (mutated s (a + j) v) (a + 4)).toList :=
      mem_memRead4_toList.2 ⟨j - 4, by omega, by rw [mutated_ibufByte, if_pos (by omega)]⟩
    exact firstBadByte_of_unique hmem hbad fun c hc => (hbyte c hc).imp And.right id
  · intro hnot
    refine firstBadByte_eq_none_iff_forall.2 fun c hc => ?_
    rcases hbyte c hc with ⟨hj8, rfl⟩ | halpha
    · exact eq_true_of_ne_false fun hbad => hnot ⟨hj8, hbad⟩
    · exact halpha

/-- CALC_CRC covers the type and the data, which lie together (R91). -/
theorem writeParse_calcCrc_eq (a n : Nat) (s : State) :
    (writeParse a n s).calcCrc = crc32 (memRead s (a + 4) (4 + (n - 12))) := by
  rw [writeParse_calcCrc, memRead4_toList, memRead_add]

/-- Settles O38: a byte of the type or the data changes CALC_CRC and not CHUNK_CRC, so the CRC check catches it unless
the tag check does before. -/
theorem oneByteMutationIsCaught : Obligations.OneByteMutationIsCaught := by
  intro s t j v hparse herr hj hjn hne
  obtain ⟨hin, hlong, hgood, hcrc, -, rfl⟩ := chkParse_accepted hparse herr
  let a := s.src.toNat
  let m := mutated s (a + j) v
  let w := writeParse a s.cnt.toNat m
  have hinM : inI m a s.cnt.toNat := hin
  have hlongM : ¬ s.cnt.toNat < 12 := Nat.not_lt.2 hlong
  have hcalc : w.calcCrc ≠ (writeParse a s.cnt.toNat s).calcCrc := by
    rw [writeParse_calcCrc_eq, writeParse_calcCrc_eq]
    exact crc32_mutated_ne (by omega) hne
  have hfield : w.chunkCrc = (writeParse a s.cnt.toNat s).chunkCrc :=
    congrArg be32 (mutated_memRead4_of_outside (by omega))
  obtain ⟨hbadTag, hgoodTag⟩ := firstBadByte_mutated (v := v) hgood hj
  by_cases hcase : j < 8 ∧ isAlpha v = false
  · exact ⟨_, exec_chkParse_of_parseSlice_raise hinM hlongM (parseSlice_eq_invalidByte (hbadTag hcase)),
      fun _ => ⟨rfl, rfl⟩, fun hnot => absurd hcase hnot⟩
  · have hmismatch : w.chunkCrc ≠ w.calcCrc := fun he => hcalc (he.symm.trans (hfield.trans hcrc))
    exact ⟨_, exec_chkParse_of_parseSlice_raise hinM hlongM (parseSlice_eq_crcMismatch (hgoodTag hcase) hmismatch),
      fun hbad => absurd hbad hcase, fun _ => ⟨rfl, rfl, hcalc⟩⟩

end Sys2Proof.Machine
end

section
/-! PROOFS. What commands do not read: OBUF (20_memory.md section 1, R48, R49), and for the walk commands IBUF from
IBUF_LEN on (44_container.md R98). Both say that a rule run with other buffers gives the same effect but for the
buffers. -/

namespace Sys2Proof.Machine

/-- The state with other lists for the two buffers. -/
def withBuffers (i o : Memory) (s : State) : State := { s with ibuf := i, obuf := o }

/-- An effect with its state changed by `f`. -/
def Effect.map (f : State → State) : Effect → Effect
  | .done s => .done (f s)
  | .raise k v s => .raise k v (f s)

/-- The two lists of IBUF read alike at the offsets below `e`. -/
def AgreeBelow (i : Memory) (s : State) (e : Nat) : Prop :=
  ∀ x, x < e → (withBuffers i s.obuf s).ibufByte x = s.ibufByte x

/-- The end of a command commutes with a change of the buffers (R74, R107). -/
theorem finish_map_withBuffers (i o : Memory) (e : Effect) :
    (e.map (withBuffers i o)).finish = withBuffers i o e.finish := by
  cases e <;> rfl

/-- A command whose rule commutes with a change of the buffers commutes with it. -/
theorem exec_withBuffers_of_rule {c : Instr} {s t : State} {i o : Memory} (h : exec c s = .next t)
    (hrule : ruleOf c (withBuffers i o (issue (encode c) s)) =
      (ruleOf c (issue (encode c) s)).map (withBuffers i o)) :
    exec c (withBuffers i o s) = .next (withBuffers i o t) := by
  rw [exec_eq_next h, ← finish_map_withBuffers, ← hrule]
  exact exec_eq c (withBuffers i o s)

section
variable {i o : Memory} {s : State} {e : Nat} (h : AgreeBelow i s e)
include h

theorem memRead_withBuffers {a n : Nat} (hle : a + n ≤ e) : memRead (withBuffers i o s) a n = memRead s a n :=
  memRead_congr fun j hj => h (a + j) (by omega)

theorem memRead4_withBuffers {a : Nat} (hle : a + 4 ≤ e) : memRead4 (withBuffers i o s) a = memRead4 s a :=
  memRead4_congr fun j hj => h (a + j) (by omega)

theorem declaredLength_withBuffers {p : Nat} (hle : p + 4 ≤ e) :
    declaredLength (withBuffers i o s) p = declaredLength s p := by
  rw [declaredLength, memRead4_withBuffers h hle, declaredLength]

theorem framed_withBuffers (p : Nat) : framed (withBuffers i o s) e p ↔ framed s e p := by
  by_cases hfixed : 12 ≤ e - p
  · rw [framed, framed, declaredLength_withBuffers h (by omega)]
  · exact iff_of_false (fun hf => hfixed hf.1) fun hf => hfixed hf.1

/-- The signature compare looks at bytes of the input only (R99). -/
theorem sigError_withBuffers : sigError (withBuffers i o s) e = sigError s e := by
  unfold sigError
  congr 1
  funext k
  by_cases hk : e ≤ k
  · simp [hk]
  · have hbyte : (withBuffers i o s).ibufByte k = s.ibufByte k := h k (Nat.not_le.1 hk)
    rw [hbyte]

section
variable {a n : Nat} (hn : 12 ≤ n) (hle : a + n ≤ e)
include hn hle

/-- The seven parse registers come from the slice's bytes (R91). -/
theorem writeParse_withBuffers : writeParse a n (withBuffers i o s) = withBuffers i o (writeParse a n s) := by
  have hlen := memRead4_withBuffers (o := o) h (show a + 4 ≤ e by omega)
  have htag := memRead4_withBuffers (o := o) h (show a + 4 + 4 ≤ e by omega)
  have hcrc := memRead4_withBuffers (o := o) h (show a + n - 4 + 4 ≤ e by omega)
  have hdata := memRead_withBuffers (o := o) h (show a + 8 + (n - 12) ≤ e by omega)
  simp only [writeParse, hlen, htag, hcrc, hdata]
  rfl

/-- parse_slice reads the slice's bytes only (R91). -/
theorem parseSlice_withBuffers :
    parseSlice a n (withBuffers i o s) = (parseSlice a n s).map (withBuffers i o) := by
  have hwrite := writeParse_withBuffers (o := o) h hn hle
  cases hbad : firstBadByte (memRead4 s (a + 4)) with
  | some b =>
    rw [parseSlice_eq_invalidByte hbad, parseSlice_eq_invalidByte, hwrite, Effect.map]
    rwa [memRead4_withBuffers h (by omega)]
  | none =>
    have hgood : firstBadByte (memRead4 (withBuffers i o s) (a + 4)) = none := by
      rwa [memRead4_withBuffers h (by omega)]
    have hcrcs : ((writeParse a n (withBuffers i o s)).chunkCrc = (writeParse a n (withBuffers i o s)).calcCrc) ↔
        (writeParse a n s).chunkCrc = (writeParse a n s).calcCrc := by rw [hwrite]; exact Iff.rfl
    have hlens : declaredLength (withBuffers i o s) a = declaredLength s a := declaredLength_withBuffers h (by omega)
    by_cases hcrc : (writeParse a n s).chunkCrc = (writeParse a n s).calcCrc
    · by_cases hlen : declaredLength s a = n - 12
      · rw [parseSlice_eq_done hbad hcrc hlen, parseSlice_eq_done hgood (hcrcs.2 hcrc) (hlens.trans hlen), hwrite,
          Effect.map]
      · rw [parseSlice_eq_lengthMismatch hbad hcrc hlen,
          parseSlice_eq_lengthMismatch hgood (hcrcs.2 hcrc) (by rwa [hlens]), hwrite, Effect.map]
    · rw [parseSlice_eq_crcMismatch hbad hcrc, parseSlice_eq_crcMismatch hgood (mt hcrcs.1 hcrc), hwrite]
      rfl

end

end

/-- When parse_slice returns, it has written the seven registers and nothing else (R91). -/
theorem parseSlice_done {a n : Nat} {s t : State} (h : parseSlice a n s = .done t) : t = writeParse a n s := by
  rw [parseSlice_eq] at h
  split at h
  · cases h
  split at h
  · cases h
  split at h
  · cases h
  · cases h
    rfl

section
variable {i o : Memory} {s : State} {e : Nat} (h : AgreeBelow i s e)
include h

/-- PNG_PARSE's loop reads the input only (R98, R102). -/
theorem walkLoop_withBuffers {fuel p : Nat} (hf : e - p ≤ fuel) (hp : p ≤ e) (count : Nat) :
    walkLoop e fuel p count (withBuffers i o s) = (walkLoop e fuel p count s).map (withBuffers i o) := by
  induction fuel generalizing p count s with
  | zero =>
    obtain rfl : p = e := by omega
    rfl
  | succ fuel ih =>
    rcases hp.eq_or_lt with rfl | hlt
    · rw [walkLoop_end, walkLoop_end]
      rfl
    by_cases hframed : framed s e p
    · obtain ⟨hfixed, hdeclared⟩ := id hframed
      have hcursor : AgreeBelow i { s with cursor := toWord p } e := h
      have hslice := parseSlice_withBuffers (o := o) hcursor (a := p) (n := 12 + declaredLength s p) (by omega)
        (by omega)
      have hframed' := (framed_withBuffers (o := o) h p).2 hframed
      rw [walkLoop_framed hf hframed, walkLoop_framed hf hframed', declaredLength_withBuffers h (by omega)]
      change (parseSlice p _ (withBuffers i o { s with cursor := toWord p })).andThen _ = _
      rw [hslice]
      cases hres : parseSlice p (12 + declaredLength s p) { s with cursor := toWord p } with
      | raise k v t => rfl
      | done t =>
        obtain rfl := parseSlice_done hres
        exact ih (s := writeParse p (12 + declaredLength s p) { s with cursor := toWord p })
          (p := p + 12 + declaredLength s p) h (by omega) (by omega) (count + 1)
    · rw [walkLoop_truncated hf hlt hframed, walkLoop_truncated hf hlt (mt (framed_withBuffers h p).1 hframed)]
      rfl

end

section
variable {i o : Memory} {s : State} (h : AgreeBelow i s s.ibufLen.toNat)
include h

theorem ruleSigChk_withBuffers : ruleSigChk (withBuffers i o s) = (ruleSigChk s).map (withBuffers i o) := by
  have hsig := sigError_withBuffers (o := o) h
  by_cases hout : s.params.ibufSize.bytes < s.ibufLen.toNat
  · rw [ruleSigChk_bounds hout, ruleSigChk_bounds (s := withBuffers i o s) hout]
    rfl
  cases hk : sigError s s.ibufLen.toNat with
  | some k =>
    rw [ruleSigChk_bad hout hk, ruleSigChk_bad (s := withBuffers i o s) hout (hsig.trans hk)]
    rfl
  | none =>
    rw [ruleSigChk_done hout hk, ruleSigChk_done (s := withBuffers i o s) hout (hsig.trans hk)]
    rfl

theorem ruleChkNext_withBuffers : ruleChkNext (withBuffers i o s) = (ruleChkNext s).map (withBuffers i o) := by
  by_cases hout : s.params.ibufSize.bytes < s.ibufLen.toNat ∨ s.ibufLen.toNat < s.cursor.toNat
  · rw [ruleChkNext_bounds hout, ruleChkNext_bounds (s := withBuffers i o s) hout]
    rfl
  by_cases hend : s.cursor.toNat = s.ibufLen.toNat
  · rw [ruleChkNext_end hout hend, ruleChkNext_end (s := withBuffers i o s) hout hend]
    rfl
  have hiff := framed_withBuffers (o := o) h s.cursor.toNat
  by_cases hframed : framed s s.ibufLen.toNat s.cursor.toNat
  · obtain ⟨hfixed, hdeclared⟩ := id hframed
    have hslice := parseSlice_withBuffers (o := o) h (a := s.cursor.toNat)
      (n := 12 + declaredLength s s.cursor.toNat) (by omega) (by omega)
    rw [ruleChkNext_framed hout hframed, ruleChkNext_framed (s := withBuffers i o s) hout (hiff.2 hframed)]
    have hcursor : (withBuffers i o s).cursor = s.cursor := rfl
    rw [hcursor, declaredLength_withBuffers h (by omega), hslice]
    cases parseSlice s.cursor.toNat (12 + declaredLength s s.cursor.toNat) s <;> rfl
  · rw [ruleChkNext_truncated hout hend hframed,
      ruleChkNext_truncated (s := withBuffers i o s) hout hend (mt hiff.1 hframed)]
    rfl

theorem rulePngParse_withBuffers : rulePngParse (withBuffers i o s) = (rulePngParse s).map (withBuffers i o) := by
  have hsig := sigError_withBuffers (o := o) h
  by_cases hout : s.params.ibufSize.bytes < s.ibufLen.toNat
  · rw [rulePngParse_bounds hout, rulePngParse_bounds (s := withBuffers i o s) hout]
    rfl
  cases hk : sigError s s.ibufLen.toNat with
  | some k =>
    rw [rulePngParse_bad hout hk, rulePngParse_bad (s := withBuffers i o s) hout (hsig.trans hk)]
    rfl
  | none =>
    obtain ⟨hlen, -⟩ := (sigError_eq_none _ _).1 hk 7 (by omega)
    rw [rulePngParse_walk hout hk, rulePngParse_walk (s := withBuffers i o s) hout (hsig.trans hk)]
    exact walkLoop_withBuffers (s := { s with cursor := 0, chunkCount := 0 }) h le_rfl hlen 0

/-- The walk commands read of the buffers only the input (R98). -/
theorem rule_withBuffers_of_walk {c : Instr} (hc : c ∈ ([.sigChk, .chkNext, .pngParse] : List Instr)) :
    ruleOf c (withBuffers i o s) = (ruleOf c s).map (withBuffers i o) := by
  simp only [List.mem_cons, List.not_mem_nil, or_false] at hc
  rcases hc with rfl | rfl | rfl
  · exact ruleSigChk_withBuffers h
  · exact ruleChkNext_withBuffers h
  · exact rulePngParse_withBuffers h

end

/-- A command that parses keeps OBUF (R42). -/
theorem exec_parse_obuf {c : Instr} {s t : State} (hc : c ∈ ([.chkParse, .sigChk, .chkNext, .pngParse] : List Instr))
    (h : exec c s = .next t) : t.obuf = s.obuf := by
  refine (exec_obuf h).resolve_right fun ⟨hstore, _⟩ => ?_
  simp only [List.mem_cons, List.not_mem_nil, or_false] at hc
  rcases hc with rfl | rfl | rfl | rfl <;> exact absurd hstore (by decide)

/-- Settles O46: the rule reads the input only, and a walk command keeps OBUF, so the other IBUF list is all that
differs. -/
theorem walkReadsOnlyTheInput : Obligations.WalkReadsOnlyTheInput := by
  intro c s t m hc hag h
  have hobuf : t.obuf = s.obuf := exec_parse_obuf (List.mem_cons_of_mem _ hc) h
  have hrun := exec_withBuffers_of_rule (i := m) (o := s.obuf) h
    (rule_withBuffers_of_walk (s := issue (encode c) s) hag hc)
  have hres : withBuffers m s.obuf t = { t with ibuf := m } := by rw [← hobuf]; rfl
  exact hrun.trans (congrArg _ hres)

/-! ### OBUF (R48, R49) -/

/-- CHK_PARSE reads IBUF only (R91). -/
theorem ruleChkParse_withObuf (o : Memory) (s : State) :
    ruleChkParse (withBuffers s.ibuf o s) = (ruleChkParse s).map (withBuffers s.ibuf o) := by
  by_cases hin : inI s s.src.toNat s.cnt.toNat
  · by_cases hshort : s.cnt.toNat < 12
    · rw [ruleChkParse_truncated hin hshort, ruleChkParse_truncated (s := withBuffers s.ibuf o s) hin hshort]
      rfl
    · rw [ruleChkParse_slice hin hshort, ruleChkParse_slice (s := withBuffers s.ibuf o s) hin hshort]
      exact parseSlice_withBuffers (e := s.src.toNat + s.cnt.toNat) (fun _ _ => rfl) (Nat.not_lt.1 hshort) le_rfl
  · rw [ruleChkParse_bounds hin, ruleChkParse_bounds (s := withBuffers s.ibuf o s) hin]
    rfl

/-- What no command's end depends on: with another content `m` of OBUF, command `c` does the same, and the MemWrite it
makes, if any, is the same (R48). -/
def SameWithObuf (c : Instr) (s t : State) (m : Memory) : Prop :=
  ∃ a bs, t.obuf = Memory.storeAll s.obuf a bs ∧
    exec c { s with obuf := m } = .next { t with obuf := Memory.storeAll m a bs }

/-- A command that does not store makes no MemWrite. -/
theorem SameWithObuf.of_kept {c : Instr} {s t : State} {m : Memory} (hobuf : t.obuf = s.obuf)
    (h : exec c { s with obuf := m } = .next { t with obuf := m }) : SameWithObuf c s t m := ⟨0, [], hobuf, h⟩

/-- A command that parses does the same with any other content of OBUF (R48). -/
theorem sameWithObuf_of_parse {c : Instr} (hc : c ∈ ([.chkParse, .sigChk, .chkNext, .pngParse] : List Instr))
    (s : State) (m : Memory) : ∃ t, exec c s = .next t ∧ SameWithObuf c s t m := by
  obtain ⟨t, h⟩ := exec_next c s
  have hrule : ruleOf c (withBuffers s.ibuf m (issue (encode c) s)) =
      (ruleOf c (issue (encode c) s)).map (withBuffers s.ibuf m) := by
    rcases List.mem_cons.1 hc with rfl | hwalk
    · exact ruleChkParse_withObuf m (issue (encode .chkParse) s)
    · exact rule_withBuffers_of_walk (s := issue (encode c) s) (fun _ _ => rfl) hwalk
  have hres : withBuffers s.ibuf m t = { t with obuf := m } := by rw [← (exec_keeps h).ibuf]; rfl
  have hobuf : t.obuf = s.obuf := exec_parse_obuf hc h
  exact ⟨t, h, .of_kept hobuf ((exec_withBuffers_of_rule h hrule).trans (congrArg _ hres))⟩

/-- Every command does the same with any other content of OBUF, outcome by outcome (R48). -/
theorem exec_sameWithObuf (c : Instr) (s : State) (m : Memory) : ∃ t, exec c s = .next t ∧ SameWithObuf c s t m := by
  cases c with
  | nop => exact ⟨_, exec_nop_eq_succeeded s, .of_kept rfl (exec_nop_eq_succeeded _)⟩
  | crcInit => exact ⟨_, exec_crcInit_eq_succeeded s, .of_kept rfl (exec_crcInit_eq_succeeded _)⟩
  | crcByte b => exact ⟨_, exec_crcByte_eq_succeeded b s, .of_kept rfl (exec_crcByte_eq_succeeded b _)⟩
  | crcW32 => exact ⟨_, exec_crcW32_eq_succeeded s, .of_kept rfl (exec_crcW32_eq_succeeded _)⟩
  | crcBuf =>
    by_cases hI : inI s s.src.toNat s.cnt.toNat
    · exact ⟨_, exec_crcBuf_of_inI hI, .of_kept rfl (exec_crcBuf_of_inI (s := { s with obuf := m }) hI)⟩
    · exact ⟨_, exec_crcBuf_of_not_inI hI, .of_kept rfl (exec_crcBuf_of_not_inI (s := { s with obuf := m }) hI)⟩
  | ldBe32 =>
    by_cases hI : inI s s.src.toNat 4
    · exact ⟨_, exec_ldBe32_of_inI hI, .of_kept rfl (exec_ldBe32_of_inI (s := { s with obuf := m }) hI)⟩
    · exact ⟨_, exec_ldBe32_of_not_inI hI, .of_kept rfl (exec_ldBe32_of_not_inI (s := { s with obuf := m }) hI)⟩
  | typeChk =>
    cases hbad : firstBadByte (be32bytes s.val) with
    | some b =>
      exact ⟨_, exec_typeChk_eq_failed rfl hbad,
        .of_kept rfl (exec_typeChk_eq_failed (s := { s with obuf := m }) rfl hbad)⟩
    | none =>
      exact ⟨_, exec_typeChk_eq_succeeded rfl hbad,
        .of_kept rfl (exec_typeChk_eq_succeeded (s := { s with obuf := m }) rfl hbad)⟩
  | stBe32 =>
    by_cases hO : inO s s.optr.toNat 4
    · exact ⟨_, exec_stBe32_of_inO hO, _, _, rfl, exec_stBe32_of_inO (s := { s with obuf := m }) hO⟩
    · exact ⟨_, exec_stBe32_of_not_inO hO, .of_kept rfl (exec_stBe32_of_not_inO (s := { s with obuf := m }) hO)⟩
  | copy =>
    by_cases hIO : inI s s.src.toNat s.cnt.toNat ∧ inO s s.optr.toNat s.cnt.toNat
    · obtain ⟨hI, hO⟩ := hIO
      exact ⟨_, exec_copy_of_inI_of_inO hI hO, _, _, rfl, exec_copy_of_inI_of_inO (s := { s with obuf := m }) hI hO⟩
    · exact ⟨_, exec_copy_of_not_inI_or_not_inO hIO,
        .of_kept rfl (exec_copy_of_not_inI_or_not_inO (s := { s with obuf := m }) hIO)⟩
  | sigWr =>
    by_cases hO : inO s s.optr.toNat 8
    · exact ⟨_, exec_sigWr_of_inO hO, _, _, rfl, exec_sigWr_of_inO (s := { s with obuf := m }) hO⟩
    · exact ⟨_, exec_sigWr_of_not_inO hO, .of_kept rfl (exec_sigWr_of_not_inO (s := { s with obuf := m }) hO)⟩
  | chkEmit =>
    by_cases hIO : inI s s.src.toNat s.cnt.toNat ∧ inO s s.optr.toNat (12 + s.cnt.toNat)
    · obtain ⟨hI, hO⟩ := hIO
      cases hbad : firstBadByte (be32bytes s.val) with
      | some b =>
        exact ⟨_, exec_chkEmit_of_firstBadByte_eq_some hI hO hbad,
          .of_kept rfl (exec_chkEmit_of_firstBadByte_eq_some (s := { s with obuf := m }) hI hO hbad)⟩
      | none =>
        exact ⟨_, exec_chkEmit_of_firstBadByte_eq_none hI hO hbad, _, _, rfl,
          exec_chkEmit_of_firstBadByte_eq_none (s := { s with obuf := m }) hI hO hbad⟩
    · exact ⟨_, exec_chkEmit_of_not_inI_or_not_inO hIO,
        .of_kept rfl (exec_chkEmit_of_not_inI_or_not_inO (s := { s with obuf := m }) hIO)⟩
  | chkParse | sigChk | chkNext | pngParse => exact sameWithObuf_of_parse (by decide) s m

/-- Settles O17: both runs make the same MemWrite, if any, so a byte is written alike in both or kept in both. -/
theorem commandsNeverReadObuf : Obligations.CommandsNeverReadObuf := by
  intro c s t m h
  obtain ⟨t', ht', a, bs, hobuf, hrun⟩ := exec_sameWithObuf c s m
  obtain rfl : t' = t := by rw [h] at ht'; cases ht'; rfl
  refine ⟨_, hrun, rfl, fun x => ?_⟩
  have hdraw : t'.powerOns = s.powerOns := (exec_keeps h).powerOns
  simp only [State.obufByte, Memory.read, hobuf, hdraw, Memory.written_storeAll]
  by_cases hx : a ≤ x ∧ x < a + bs.length
  · left
    simp only [dif_pos hx]
  · right
    simp only [dif_neg hx, and_self]

end Sys2Proof.Machine
end

section
/-! PROOFS. The container walk: PNG_PARSE over every container (44_container.md R102), and the host walk of SIG_CHK and
CHK_NEXT, which ends where PNG_PARSE ends (R104). -/

namespace Sys2Proof.Machine

/-! ### Good chunks and their parse registers (R98, R102) -/

/-- Each of the good chunks has 12 bytes or more (R90). -/
theorem goodChunks_ge {s : State} {e p n q : Nat} (h : goodChunks s e p n q) : p + 12 * n ≤ q := by
  induction n generalizing p with
  | zero => exact h.le
  | succ n ih =>
    have hrest := ih h.2
    omega

/-- From any offset of the input the good chunks end, at the end of input or at a bad chunk (R102). -/
theorem exists_goodChunks (s : State) {e p : Nat} (hp : p ≤ e) :
    ∃ n q, goodChunks s e p n q ∧ (q = e ∨ ¬ goodChunk s e q) := by
  by_cases hgood : goodChunk s e p
  · obtain ⟨⟨hfixed, hdeclared⟩, -⟩ := id hgood
    obtain ⟨n, q, hchunks, hend⟩ := exists_goodChunks s (e := e) (p := p + 12 + declaredLength s p) (by omega)
    exact ⟨n + 1, q, ⟨hgood, hchunks⟩, hend⟩
  · exact ⟨0, p, rfl, .inr hgood⟩
termination_by e - p

/-- What a walk has of the input at a chunk's start depends on IBUF alone (R98). -/
theorem chunk_congr {s t : State} (h : t.ibuf = s.ibuf ∧ t.powerOns = s.powerOns) (e p : Nat) :
    memRead4 t (p + 4) = memRead4 s (p + 4) ∧ declaredLength t p = declaredLength s p ∧
      (framed t e p ↔ framed s e p) ∧ (crcMatches t p ↔ crcMatches s p) := by
  have hbyte : ∀ a, t.ibufByte a = s.ibufByte a := fun a => by rw [State.ibufByte, h.1, h.2, State.ibufByte]
  have hfield : ∀ a, memRead4 t a = memRead4 s a := fun a => memRead4_congr fun _ _ => hbyte _
  have hrange : ∀ a n, memRead t a n = memRead s a n := fun a n => memRead_congr fun _ _ => hbyte _
  refine ⟨hfield _, ?_, ?_, ?_⟩ <;> simp only [framed, crcMatches, declaredLength, hfield, hrange]

/-- The parse registers of a walk do not depend on the record, on CURSOR or on CHUNK_COUNT, and leave them as they are.
-/
theorem parsedChunks_frame (w : Word) (st : Status) (info c k : Word) (s : State) (p n : Nat) :
    parsedChunks { ended w st info s with cursor := c, chunkCount := k } p n =
      { ended w st info (parsedChunks s p n) with cursor := c, chunkCount := k } := by
  induction n generalizing s p with
  | zero => rfl
  | succ n ih => exact ih (writeParse p (12 + declaredLength s p) s) _

/-- A walk keeps the operand registers, and counts chunks elsewhere than in its parse registers. -/
theorem parsedChunks_keeps (s : State) (p n : Nat) :
    (parsedChunks s p n).params = s.params ∧ (parsedChunks s p n).ibufLen = s.ibufLen ∧
      (parsedChunks s p n).cursor = s.cursor ∧ (parsedChunks s p n).chunkCount = s.chunkCount := by
  induction n generalizing s p with
  | zero => exact ⟨rfl, rfl, rfl, rfl⟩
  | succ n ih => exact ih _ _

/-- The recomputed CRC covers the type and the `l` data bytes (R91). -/
theorem writeParse_calcCrc_framed (p l : Nat) (s : State) :
    (writeParse p (12 + l) s).calcCrc = crc32 ((memRead4 s (p + 4)).toList ++ memRead s (p + 8) l) := by
  rw [writeParse_calcCrc, Nat.add_sub_cancel_left]

/-- The two CRC registers agree exactly when the chunk's CRC is good (R91). -/
theorem writeParse_crc_iff (p : Nat) (s : State) :
    (writeParse p (12 + declaredLength s p) s).chunkCrc = (writeParse p (12 + declaredLength s p) s).calcCrc ↔
      crcMatches s p := by
  rw [writeParse_calcCrc_framed, writeParse_chunkCrc,
    show p + (12 + declaredLength s p) - 4 = p + 8 + declaredLength s p by omega]

/-! ### PNG_PARSE (R102), one lemma per end -/

/-- PNG_PARSE with an end of input past IBUF raises BufferBounds(0) and clears CHUNK_COUNT alone (log entry 17). -/
theorem exec_pngParse_of_size_lt {s : State} (h : s.params.ibufSize.bytes < s.ibufLen.toNat) :
    exec .pngParse s = .next (failed (encode .pngParse) .bufferBounds 0 { s with chunkCount := 0 }) :=
  exec_of_not_rangesExist (i := .pngParse) (Nat.not_le.2 h)

/-- What the loop has of the input at q after n good chunks is what the state before has (R98). -/
theorem chunk_congr_at (s : State) (c : Word) (n q : Nat) :
    let r := issue (encode .pngParse) { parsedChunks s 8 n with cursor := c, chunkCount := 0 }
    memRead4 r (q + 4) = memRead4 s (q + 4) ∧ declaredLength r q = declaredLength s q ∧
      (framed r s.ibufLen.toNat q ↔ framed s s.ibufLen.toNat q) ∧ (crcMatches r q ↔ crcMatches s q) :=
  chunk_congr (t := issue (encode .pngParse) { parsedChunks s 8 n with cursor := c, chunkCount := 0 })
    (parsedChunks_ibuf s 8 n) s.ibufLen.toNat q

section
variable {s : State} (hin : s.ibufLen.toNat ≤ s.params.ibufSize.bytes)
include hin

/-- PNG_PARSE that finds byte `k` of the signature missing or wrong resets the walk and raises BadSignature(k) (R102).
-/
theorem exec_pngParse_of_sigError_eq_some {k : Nat} (hk : sigError s s.ibufLen.toNat = some k) :
    exec .pngParse s =
      .next (failed (encode .pngParse) .badSignature (toWord k) { s with cursor := 0, chunkCount := 0 }) :=
  exec_of_rule_raise (u := { s with cursor := 0, chunkCount := 0 })
    (rulePngParse_bad (s := issue (encode .pngParse) s) hin.not_gt hk)

variable (hsig : sigError s s.ibufLen.toNat = none) {n q : Nat} (hchunks : goodChunks s s.ibufLen.toNat 8 n q)
include hsig hchunks

/-- After the signature and n good chunks PNG_PARSE is its loop at their end q, with fuel left (R102). -/
theorem rulePngParse_at : ∃ fuel c, s.ibufLen.toNat - q ≤ fuel ∧
    ruleOf .pngParse (issue (encode .pngParse) s) = walkLoop s.ibufLen.toNat fuel q n
      (issue (encode .pngParse) { parsedChunks s 8 n with cursor := c, chunkCount := 0 }) := by
  let r : State := { issue (encode .pngParse) s with cursor := 0, chunkCount := 0 }
  obtain ⟨fuel, c, hfuel, hloop⟩ := walkLoop_good (s := r) (count := 0) le_rfl
    ((goodChunks_congr s r rfl rfl _ _ _ _).2 hchunks)
  refine ⟨fuel, c, hfuel, ?_⟩
  calc ruleOf .pngParse (issue (encode .pngParse) s)
      _ = walkLoop s.ibufLen.toNat (s.ibufLen.toNat - 8) 8 0 r :=
        rulePngParse_walk (s := issue (encode .pngParse) s) hin.not_gt hsig
      _ = walkLoop s.ibufLen.toNat fuel q (0 + n) { parsedChunks r 8 n with cursor := c } := hloop
      _ = _ := by
        rw [Nat.zero_add, show parsedChunks r 8 n = _ from parsedChunks_frame _ _ _ _ _ s 8 n]
        rfl

/-- At the end of input PNG_PARSE sets EOI, CURSOR to the end and CHUNK_COUNT to the number of chunks (R102). -/
theorem exec_pngParse_of_end (hend : q = s.ibufLen.toNat) :
    exec .pngParse s = .next (ended (encode .pngParse) (Status.success true) 0
      { parsedChunks s 8 n with cursor := s.ibufLen, chunkCount := toWord n }) := by
  obtain ⟨fuel, c, -, hrule⟩ := rulePngParse_at hin hsig hchunks
  rw [exec_eq, hrule, hend, walkLoop_end, walkEnd, toWord_toNat]
  rfl

/-- At a chunk that does not fit in the input PNG_PARSE raises Truncated of the bytes left, with CURSOR there (R102). -/
theorem exec_pngParse_of_not_framed (hlt : q < s.ibufLen.toNat) (hout : ¬ framed s s.ibufLen.toNat q) :
    exec .pngParse s = .next (failed (encode .pngParse) .truncated (toWord (s.ibufLen.toNat - q))
      { parsedChunks s 8 n with cursor := toWord q, chunkCount := 0 }) := by
  obtain ⟨fuel, c, hfuel, hrule⟩ := rulePngParse_at hin hsig hchunks
  obtain ⟨-, -, hframed, -⟩ := chunk_congr_at s c n q
  exact exec_of_rule_raise (u := { parsedChunks s 8 n with cursor := toWord q, chunkCount := 0 })
    (hrule.trans (walkLoop_truncated hfuel hlt (mt hframed.1 hout)))

variable (hframed : framed s s.ibufLen.toNat q)
include hframed

/-- At a framed chunk whose type is not alphabetic PNG_PARSE raises InvalidByte, with the parse registers written
(R102). -/
theorem exec_pngParse_of_invalidByte {b : Byte} (hbad : firstBadByte (memRead4 s (q + 4)) = some b) :
    exec .pngParse s = .next (failed (encode .pngParse) .invalidByte (zext32 b)
      { writeParse q (12 + declaredLength s q) (parsedChunks s 8 n) with cursor := toWord q, chunkCount := 0 }) := by
  obtain ⟨fuel, c, hfuel, hrule⟩ := rulePngParse_at hin hsig hchunks
  obtain ⟨htag, hlen, hframed', -⟩ := chunk_congr_at s c n q
  have hloop := walkLoop_invalid (count := n) hfuel (hframed'.2 hframed) (by rw [htag, hbad])
  rw [hlen] at hloop
  exact exec_of_rule_raise (u := { writeParse q (12 + declaredLength s q) (parsedChunks s 8 n) with
    cursor := toWord q, chunkCount := 0 }) (hrule.trans hloop)

/-- At a framed chunk with an alphabetic type and a bad CRC PNG_PARSE raises CrcMismatch of the recomputed CRC, with the
parse registers written (R102). -/
theorem exec_pngParse_of_crcMismatch (hgood : firstBadByte (memRead4 s (q + 4)) = none) (hcrc : ¬ crcMatches s q) :
    let w := writeParse q (12 + declaredLength s q) (parsedChunks s 8 n)
    exec .pngParse s = .next (failed (encode .pngParse) .crcMismatch w.calcCrc
      { w with cursor := toWord q, chunkCount := 0 }) := by
  intro w
  obtain ⟨fuel, c, hfuel, hrule⟩ := rulePngParse_at hin hsig hchunks
  obtain ⟨htag, hlen, hframed', hcrc'⟩ := chunk_congr_at s c n q
  have hloop := walkLoop_crc (count := n) hfuel (hframed'.2 hframed) (by rw [htag, hgood]) (mt hcrc'.1 hcrc)
  rw [hlen, ← writeParse_calcCrc_framed] at hloop
  exact exec_of_rule_raise (u := { w with cursor := toWord q, chunkCount := 0 }) (hrule.trans hloop)

end

/-- Settles O42: the bounds and the signature as SIG_CHK's; then the good chunks have an end, and PNG_PARSE stops
there. -/
theorem pngParseWalksTheContainer : Obligations.PngParseWalksTheContainer := by
  intro s e
  refine ⟨exec_pngParse_of_size_lt, fun hin => ⟨fun k hk hbefore hbad => ?_, fun hall => ⟨?_, ?_⟩⟩⟩
  · exact exec_pngParse_of_sigError_eq_some hin (sigError_eq_some.2 ⟨hk, hbad, hbefore⟩)
  · obtain ⟨hlen, -⟩ := hall 7 (by omega)
    exact exists_goodChunks s hlen
  · intro n q hchunks u l w
    have hsig : sigError s e = none := (sigError_eq_none s e).2 hall
    obtain ⟨hlen, -⟩ := hall 7 (by omega)
    exact ⟨goodChunks_ge hchunks, goodChunks_le hchunks hlen, exec_pngParse_of_end hin hsig hchunks,
      exec_pngParse_of_not_framed hin hsig hchunks, fun hframed =>
        ⟨fun _ => exec_pngParse_of_invalidByte hin hsig hchunks hframed,
          exec_pngParse_of_crcMismatch hin hsig hchunks hframed⟩⟩

/-! ### The host walk (R104) -/

/-- CHK_NEXT at a good chunk moves past it and counts it (R101). -/
theorem exec_chkNext_of_goodChunk {s : State}
    (hin : ¬ (s.params.ibufSize.bytes < s.ibufLen.toNat ∨ s.ibufLen.toNat < s.cursor.toNat))
    (hgood : goodChunk s s.ibufLen.toNat s.cursor.toNat) :
    exec .chkNext s = .next (succeeded (encode .chkNext)
      { writeParse s.cursor.toNat (12 + declaredLength s s.cursor.toNat) s with
        cursor := toWord (s.cursor.toNat + 12 + declaredLength s s.cursor.toNat)
        chunkCount := s.chunkCount + 1 }) :=
  exec_chkNext_of_parseSlice_done hin hgood.1 (goodChunk_parseSlice (s := issue (encode .chkNext) s) hgood)

section
variable {s t : State} (h : exec .chkNext s = .next t) (k n : Nat)
include h

/-- The walk goes on after a success without EOI (R104). -/
theorem walkOn_of_success (hst : t.status = Status.success false) : walkOn (k + 1) s n = walkOn k t (n + 1) := by
  simp [walkOn, h, nextState, hst, Status.success]

/-- The walk stops at EOI or ERR (R104). -/
theorem walkOn_of_stop (hst : (t.status.eoi || t.status.err) = true) : walkOn (k + 1) s n = some (t, n) := by
  simp only [walkOn, h, nextState, hst, if_true]

end

section
variable {s t : State} (h : exec .sigChk s = .next t) (k : Nat)
include h

/-- A host walk whose SIG_CHK fails ends with it (R104). -/
theorem hostWalk_of_failure (hst : t.status.err = true) : hostWalk k s = some (t, 0) := by
  simp only [hostWalk, h, nextState, hst, if_true]

/-- A host walk whose SIG_CHK succeeds goes on with CHK_NEXT (R104). -/
theorem hostWalk_of_success (hst : t.status.err = false) : hostWalk k s = walkOn k t 0 := by
  simp only [hostWalk, h, nextState, hst, Bool.false_eq_true, if_false]

end

/-- The host walk goes past n good chunks with n CHK_NEXTs. Only the record of the last one is not named (R104). -/
theorem walkOn_goodChunks {s : State} {n p q : Nat} (hin : s.ibufLen.toNat ≤ s.params.ibufSize.bytes)
    (hcursor : s.cursor = toWord p) (hp : p ≤ s.ibufLen.toNat) (hchunks : goodChunks s s.ibufLen.toNat p n q)
    (k m : Nat) :
    ∃ w st info, walkOn (k + n) s m = walkOn k (ended w st info
      { parsedChunks s p n with cursor := toWord q, chunkCount := s.chunkCount + toWord n }) (m + n) := by
  induction n generalizing s p m with
  | zero =>
    obtain rfl : p = q := hchunks
    refine ⟨s.cmd, s.status, s.errInfo, ?_⟩
    rw [parsedChunks, ← hcursor, show toWord 0 = 0#32 from rfl, BitVec.add_zero]
    rfl
  | succ n ih =>
    obtain ⟨hgood, hrest⟩ := hchunks
    obtain ⟨⟨hfixed, hdeclared⟩, -, -⟩ := id hgood
    have hpos : s.cursor.toNat = p := by rw [hcursor, ibuf_toNat (p := s.params) (by omega)]
    have hnext := exec_chkNext_of_goodChunk (s := s) (by omega) (by rwa [hpos])
    rw [hpos] at hnext
    let t := succeeded (encode .chkNext) { writeParse p (12 + declaredLength s p) s with
      cursor := toWord (p + 12 + declaredLength s p), chunkCount := s.chunkCount + 1 }
    obtain ⟨w, st, info, hwalk⟩ := ih (s := t) hin rfl
      (show p + 12 + declaredLength s p ≤ s.ibufLen.toNat by omega)
      ((goodChunks_congr s t rfl rfl _ _ _ _).2 hrest) (m + 1)
    refine ⟨w, st, info, ?_⟩
    have hframe : parsedChunks t (p + 12 + declaredLength s p) n = _ := parsedChunks_frame _ _ _ _ _
      (writeParse p (12 + declaredLength s p) s) _ _
    have hcount : s.chunkCount + 1 + toWord n = s.chunkCount + toWord (n + 1) := by
      rw [toWord, toWord, BitVec.add_assoc, Nat.add_comm n 1, BitVec.ofNat_add]
      rfl
    rw [hframe] at hwalk
    rw [← Nat.add_assoc, walkOn_of_success hnext (k + n) m rfl, hwalk, Nat.add_right_comm m 1 n, ← Nat.add_assoc,
      ← hcount]
    rfl

/-- At the end of the good chunks the next CHK_NEXT stops the walk, in the state in which PNG_PARSE ends but for CMD
and, on an error, CHUNK_COUNT (R104). -/
theorem exec_chkNext_stops {s : State} {n q : Nat} (hin : s.ibufLen.toNat ≤ s.params.ibufSize.bytes)
    (hsig : sigError s s.ibufLen.toNat = none) (hchunks : goodChunks s s.ibufLen.toNat 8 n q)
    (hq : q ≤ s.ibufLen.toNat) (hend : q = s.ibufLen.toNat ∨ ¬ goodChunk s s.ibufLen.toNat q) :
    ∃ t, exec .chkNext { parsedChunks s 8 n with cursor := toWord q, chunkCount := toWord n } = .next t ∧
      (t.status.eoi || t.status.err) = true ∧ t.chunkCount = toWord n ∧
      exec .pngParse s = .next { t with
        cmd := 0x00000023
        chunkCount := if t.status.err = true then 0 else t.chunkCount } := by
  let r : State := { parsedChunks s 8 n with cursor := toWord q, chunkCount := toWord n }
  obtain ⟨hparams, hibufLen, -, -⟩ := parsedChunks_keeps s 8 n
  have hlen : r.ibufLen = s.ibufLen := hibufLen
  have hpos : r.cursor.toNat = q := ibuf_toNat (p := s.params) (by omega)
  have hinR : ¬ (r.params.ibufSize.bytes < r.ibufLen.toNat ∨ r.ibufLen.toNat < r.cursor.toNat) := by
    rw [hlen, hpos, show r.params = s.params from hparams]
    omega
  obtain ⟨htag, hdeclared, hframed, hcrc⟩ := chunk_congr (t := r) (parsedChunks_ibuf s 8 n) s.ibufLen.toNat q
  by_cases hstop : q = s.ibufLen.toNat
  · have hnext := exec_chkNext_of_cursor_eq hinR (by rw [hlen, hpos, hstop])
    have hword : toWord q = s.ibufLen := by rw [hstop, toWord_toNat]
    have hparse := exec_pngParse_of_end hin hsig hchunks hstop
    rw [← hword] at hparse
    exact ⟨_, hnext, rfl, rfl, hparse⟩
  have hbad : ¬ goodChunk s s.ibufLen.toNat q := hend.resolve_left hstop
  by_cases hfits : framed s s.ibufLen.toNat q
  · have hfitsR : framed r r.ibufLen.toNat r.cursor.toNat := by rw [hlen, hpos]; exact hframed.2 hfits
    cases hfirst : firstBadByte (memRead4 s (q + 4)) with
    | some b =>
      have hnext := exec_chkNext_of_parseSlice_raise hinR hfitsR
        (parseSlice_eq_invalidByte (b := b) (by rw [hpos, issue_memRead4, htag, hfirst]))
      rw [hpos, hdeclared] at hnext
      exact ⟨_, hnext, rfl, rfl, exec_pngParse_of_invalidByte hin hsig hchunks hfits hfirst⟩
    | none =>
      have hmismatch : ¬ crcMatches s q := fun hmatch => hbad ⟨hfits, hfirst, hmatch⟩
      have hfields := mt (writeParse_crc_iff q (issue (encode .chkNext) r)).1 (mt hcrc.1 hmismatch)
      have hnext := exec_chkNext_of_parseSlice_raise hinR hfitsR
        (parseSlice_eq_crcMismatch (by rw [hpos, issue_memRead4, htag, hfirst]) (by rw [hpos]; exact hfields))
      rw [hpos, hdeclared] at hnext
      exact ⟨_, hnext, rfl, rfl, exec_pngParse_of_crcMismatch hin hsig hchunks hfits hfirst hmismatch⟩
  · have hnext := exec_chkNext_of_not_framed hinR (by rwa [hlen, hpos]) (by rw [hlen, hpos]; exact mt hframed.1 hfits)
    rw [hlen, hpos] at hnext
    exact ⟨_, hnext, rfl, rfl, exec_pngParse_of_not_framed hin hsig hchunks (by omega) hfits⟩

/-- The host walk with n good chunks ends when the CHK_NEXT after them stops (R104). -/
theorem hostWalk_to_end {s : State} {n q : Nat} (hin : s.ibufLen.toNat ≤ s.params.ibufSize.bytes)
    (hsig : sigError s s.ibufLen.toNat = none) (hchunks : goodChunks s s.ibufLen.toNat 8 n q)
    (hlen : 8 ≤ s.ibufLen.toNat) (k : Nat) (t : State)
    (hnext : exec .chkNext { parsedChunks s 8 n with cursor := toWord q, chunkCount := toWord n } = .next t)
    (hstop : (t.status.eoi || t.status.err) = true) : hostWalk (k + 1 + n) s = some (t, n) := by
  let r := succeeded (encode .sigChk) { s with cursor := 8, chunkCount := 0 }
  obtain ⟨w, st, info, hwalk⟩ := walkOn_goodChunks (s := r) (p := 8) hin rfl hlen
    ((goodChunks_congr s r rfl rfl _ _ _ _).2 hchunks) (k + 1) 0
  have hframe : parsedChunks r 8 n = _ := parsedChunks_frame _ _ _ _ _ s 8 n
  have hcount : r.chunkCount + toWord n = toWord n := BitVec.zero_add _
  rw [hframe, hcount, Nat.zero_add] at hwalk
  rw [hostWalk_of_success (exec_sigChk_of_sigError_eq_none hin hsig) _ rfl, hwalk]
  exact walkOn_of_stop ((issueForgetsTheOldRecord .chkNext _ w info st).trans hnext) k n hstop

/-- Settles O43: SIG_CHK fails as PNG_PARSE does; otherwise the walk goes past the good chunks and stops where
PNG_PARSE's loop does, with CHK_NEXTs to spare. -/
theorem hostWalkEndsWherePngParseEnds : Obligations.HostWalkEndsWherePngParseEnds := by
  intro s
  by_cases hin : s.ibufLen.toNat ≤ s.params.ibufSize.bytes
  · cases hsig : sigError s s.ibufLen.toNat with
    | some k =>
      exact ⟨_, 0, hostWalk_of_failure (exec_sigChk_of_sigError_eq_some hin hsig) _ rfl, fun _ => rfl,
        exec_pngParse_of_sigError_eq_some hin hsig⟩
    | none =>
      obtain ⟨hlen, -⟩ := (sigError_eq_none _ _).1 hsig 7 (by omega)
      obtain ⟨n, q, hchunks, hend⟩ := exists_goodChunks s (e := s.ibufLen.toNat) (p := 8) hlen
      have hle := goodChunks_le hchunks hlen
      have hge := goodChunks_ge hchunks
      obtain ⟨t, hnext, hstop, hcount, hparse⟩ := exec_chkNext_stops hin hsig hchunks hle hend
      have hwalk := hostWalk_to_end hin hsig hchunks hlen (s.ibufLen.toNat - n) t hnext hstop
      rw [show s.ibufLen.toNat - n + 1 + n = s.ibufLen.toNat + 1 by omega] at hwalk
      exact ⟨t, n, hwalk, fun _ => hcount, hparse⟩
  · have hout : s.params.ibufSize.bytes < s.ibufLen.toNat := Nat.not_le.1 hin
    exact ⟨_, 0, hostWalk_of_failure (exec_sigChk_of_size_lt hout) _ rfl, fun h => absurd h hin,
      exec_pngParse_of_size_lt hout⟩

end Sys2Proof.Machine
end

section
/-! PROOFS. The container round trip (44_container.md R103): what a signature and a list of CHK_EMITs build in OBUF,
copied into IBUF, is a container whose chunks the walk accepts, and emitting it again gives the same bytes. -/

namespace Sys2Proof.Machine

/-! ### The chunks of a list of emissions -/

@[simp] theorem Emission.data_length (x : Emission) (s : State) : (x.data s).length = x.len.toNat :=
  memRead_length _ _ _

/-- What an emission's data are depends on its own IBUF content alone, and on the power-on that draws the rest. -/
theorem Emission.data_congr (x : Emission) {s t : State} (h : t.powerOns = s.powerOns) : x.data t = x.data s :=
  memRead_congr fun _ _ => by simp only [State.ibufByte, h]

/-- IBUF of `u` holds, from offset `p` on, the chunks of the emissions `es` one after another, each with a type of four
letters. The draws of the emissions' own IBUF contents are those of `s`. -/
def ChunksAt (s u : State) : Nat → List Emission → Prop
  | _, [] => True
  | p, x :: es =>
    (memRead u p (12 + x.len.toNat) = serializeChunk x.tag (x.data s) ∧ firstBadByte x.tag = none) ∧
      ChunksAt s u (p + 12 + x.len.toNat) es

/-- The chunks of `pre` take 8 bytes less than `chunkStart pre`, so the next chunk starts right after them (R98). -/
theorem ChunksAt.of_append {s u : State} {p : Nat} {pre es : List Emission} (h : ChunksAt s u p (pre ++ es)) :
    ChunksAt s u (p + chunkStart pre - 8) es := by
  induction pre generalizing p with
  | nil => exact h
  | cons x pre ih =>
    have hrest := ih h.2
    rwa [show p + chunkStart (x :: pre) - 8 = p + 12 + x.len.toNat + chunkStart pre - 8 by
      simp only [chunkStart]; omega]

theorem chunkStart_ge (es : List Emission) : 8 ≤ chunkStart es := by
  induction es with
  | nil => exact le_rfl
  | cons x es ih => exact ih.trans (Nat.le_add_left _ _)

theorem chunkStart_append (pre es : List Emission) : chunkStart (pre ++ es) + 8 = chunkStart pre + chunkStart es := by
  induction pre with
  | nil => simp [chunkStart, Nat.add_comm]
  | cons x pre ih =>
    simp only [List.cons_append, chunkStart]
    omega

/-! ### A serialized chunk in the input is a good chunk (R98, R102) -/

theorem goodChunk_of_chunk {s : State} {p e : Nat} {t : Quad} {d : List Byte}
    (h : memRead s p (12 + d.length) = serializeChunk t d) (hgood : firstBadByte t = none) (hd : d.length < 2 ^ 32)
    (he : p + (12 + d.length) ≤ e) : goodChunk s e p := by
  obtain ⟨-, htag, hdata, hcrc⟩ := memRead_eq_serializeChunk_iff.1 h
  have hlen := declaredLength_of_chunk h hd
  refine ⟨⟨by omega, by omega⟩, by rw [htag, hgood], ?_⟩
  rw [crcMatches, hlen, htag, hdata, hcrc, be32_be32bytes]

section
variable {s u : State} {p : Nat} {x : Emission} {es : List Emission} (h : ChunksAt s u p (x :: es))
include h

theorem ChunksAt.head : memRead u p (12 + (x.data s).length) = serializeChunk x.tag (x.data s) := by
  rw [Emission.data_length]
  exact h.1.1

theorem ChunksAt.head_tag : firstBadByte x.tag = none := h.1.2

theorem ChunksAt.goodChunk_head {e : Nat} (he : p + 12 + x.len.toNat ≤ e) : goodChunk u e p :=
  goodChunk_of_chunk h.head h.head_tag (by rw [Emission.data_length]; exact x.len.isLt)
    (by rwa [Emission.data_length, ← Nat.add_assoc])

theorem ChunksAt.declaredLength_head : declaredLength u p = x.len.toNat := by
  rw [declaredLength_of_chunk h.head (by rw [Emission.data_length]; exact x.len.isLt), Emission.data_length]

/-- The parse registers of the first chunk are its emission's length, tag and CRC (R90, R91). -/
theorem ChunksAt.writeParse_head : writeParse p (12 + x.len.toNat) u = { u with
    chunkLen := x.len
    chunkType := be32 x.tag
    chunkCrc := crc32 (x.tag.toList ++ x.data s)
    calcCrc := crc32 (x.tag.toList ++ x.data s)
    dataOff := toWord (p + 8)
    dataLen := x.len
    typeFlags := tagFlags x.tag } := by
  have hparse := writeParse_of_chunk h.head
  rwa [Emission.data_length, toWord_toNat] at hparse

/-- The first chunk's data lie 8 bytes after its start (R90). -/
theorem ChunksAt.memRead_data_head : memRead u (p + 8) x.len.toNat = x.data s := by
  obtain ⟨-, -, hdata, -⟩ := memRead_eq_serializeChunk_iff.1 h.head
  rwa [Emission.data_length] at hdata

end

/-- The chunks of a list of emissions in the input are that many good chunks (R98). -/
theorem ChunksAt.goodChunks_all {s u : State} {e p : Nat} {es : List Emission} (h : ChunksAt s u p es)
    (he : p + chunkStart es = e + 8) : goodChunks u e p es.length e := by
  induction es generalizing p with
  | nil => exact Nat.add_right_cancel he
  | cons x es ih =>
    have hge := chunkStart_ge es
    simp only [chunkStart] at he
    refine ⟨h.goodChunk_head (by omega), ?_⟩
    rw [h.declaredLength_head]
    exact ih h.2 (by omega)

/-! ### Emitting the list (R96, R103) -/

/-- A CHK_EMIT that an emission sets up, when both ranges exist and the tag is alphabetic (R96). -/
theorem exec_chkEmit_setUp {s : State} {x : Emission}
    (hI : x.off.toNat + x.len.toNat ≤ s.params.ibufSize.bytes)
    (hO : s.optr.toNat + (12 + x.len.toNat) ≤ s.params.obufSize.bytes) (hgood : firstBadByte x.tag = none) :
    exec .chkEmit (x.setUp s) = .next (succeeded (encode .chkEmit)
      { memWrite (x.setUp s) s.optr.toNat (serializeChunk x.tag (x.data s)) with
        typeFlags := tagFlags x.tag
        calcCrc := crc32 (x.tag.toList ++ x.data s)
        optr := toWord (s.optr.toNat + 12 + x.len.toNat) }) := by
  have hval : be32bytes (x.setUp s).val = x.tag := be32bytes_be32 x.tag
  have hemit := exec_chkEmit_of_firstBadByte_eq_none (s := x.setUp s) hI hO (by rw [hval, hgood])
  rw [hval] at hemit
  exact hemit

/-- What an emission that succeeded says: the output range exists, the tag is alphabetic, and it did what CHK_EMIT
does. -/
theorem setUp_succeeded {s t : State} {x : Emission} (h : exec .chkEmit (x.setUp s) = .next t)
    (herr : t.status.err = false) :
    s.optr.toNat + (12 + x.len.toNat) ≤ s.params.obufSize.bytes ∧ firstBadByte x.tag = none ∧
      t = succeeded (encode .chkEmit)
        { memWrite (x.setUp s) s.optr.toNat (serializeChunk x.tag (x.data s)) with
          typeFlags := tagFlags x.tag
          calcCrc := crc32 (x.tag.toList ++ x.data s)
          optr := toWord (s.optr.toNat + 12 + x.len.toNat) } := by
  have hval : be32bytes (x.setUp s).val = x.tag := be32bytes_be32 x.tag
  obtain ⟨hI, hO, hgood, -⟩ := chkEmit_succeeded h herr
  rw [hval] at hgood
  have hemit := exec_chkEmit_setUp (s := s) hI hO hgood
  rw [h] at hemit
  cases hemit
  exact ⟨hO, hgood, rfl⟩

/-- One emission and then the rest (R103). -/
theorem emitAll_cons_eq_some {x : Emission} {es : List Emission} {s t : State} :
    emitAll (x :: es) s = some t ↔
      ∃ r, exec .chkEmit (x.setUp s) = .next r ∧ r.status.err = false ∧ emitAll es r = some t := by
  obtain ⟨r, hr⟩ := exec_next .chkEmit (x.setUp s)
  simp only [emitAll, hr, nextState]
  cases herr : r.status.err <;> simp [herr]

/-- A list of emissions that all succeeded advances OPTR past its chunks, leaves the bytes before them, and what lies
there, copied into IBUF, is its chunks. -/
theorem chunksAt_of_emitAll {s u r t : State} {es : List Emission} (h : emitAll es r = some t)
    (hdraw : r.powerOns = s.powerOns) (hcopy : ∀ x, x < t.optr.toNat → u.ibufByte x = t.obufByte x) :
    ChunksAt s u r.optr.toNat es ∧ t.optr.toNat + 8 = r.optr.toNat + chunkStart es ∧
      ∀ x, x < r.optr.toNat → t.obufByte x = r.obufByte x := by
  induction es generalizing r with
  | nil =>
    cases h
    exact ⟨trivial, rfl, fun _ _ => rfl⟩
  | cons x es ih =>
    obtain ⟨r₁, hemit, herr, hrest⟩ := emitAll_cons_eq_some.1 h
    obtain ⟨hO, hgood, hr₁⟩ := setUp_succeeded hemit herr
    have hoptr : r₁.optr.toNat = r.optr.toNat + 12 + x.len.toNat := by
      rw [hr₁, Nat.add_assoc]
      exact optr_toNat hO
    have hwritten : ∀ y, r₁.obufByte y =
        (memWrite (x.setUp r) r.optr.toNat (serializeChunk x.tag (x.data r))).obufByte y := fun y => by rw [hr₁]; rfl
    have hlen : (serializeChunk x.tag (x.data r)).length = 12 + x.len.toNat := by simp
    obtain ⟨hchunks, hsize, hkept⟩ := ih hrest (by rw [hr₁]; exact hdraw)
    have hge := chunkStart_ge es
    have hhead := memRead_of_copy (u := u) (s := x.setUp r) (a := r.optr.toNat) (b := r.optr.toNat)
      (bs := serializeChunk x.tag (x.data r)) fun i hi =>
        (hcopy _ (by omega)).trans ((hkept _ (by omega)).trans (hwritten _))
    rw [hlen, Emission.data_congr x hdraw] at hhead
    rw [hoptr] at hchunks
    refine ⟨⟨⟨hhead, hgood⟩, hchunks⟩, by simp only [chunkStart]; omega, fun y hy => ?_⟩
    rw [hkept y (by omega), hwritten, memWrite_obufByte_of_outside _ (.inl hy)]
    rfl

/-- A signature at OBUF[0] and emissions that all succeeded, copied into IBUF: the signature is there, and then the
chunks lie one after another up to OPTR (R103). -/
theorem container_of_emitAll {s t₀ t u : State} {es : List Emission}
    (hsig : exec .sigWr { s with optr := 0 } = .next t₀) (herr : t₀.status.err = false) (h : emitAll es t₀ = some t)
    (hcopy : ∀ x, x < t.optr.toNat → u.ibufByte x = t.obufByte x) :
    memRead u 0 8 = sig ∧ ChunksAt s u 8 es ∧ t.optr.toNat = chunkStart es := by
  have hO : inO { s with optr := 0 } 0 8 := by
    by_contra hout
    rw [exec_sigWr_of_not_inO (s := { s with optr := 0 }) hout] at hsig
    cases hsig
    exact Bool.noConfusion herr
  have hwrite := exec_sigWr_of_inO (s := { s with optr := 0 }) hO
  rw [hsig] at hwrite
  have ht₀ := Host.Outcome.next.inj hwrite
  have hoptr : t₀.optr.toNat = 8 := by rw [ht₀]; rfl
  obtain ⟨hchunks, hsize, hkept⟩ := chunksAt_of_emitAll (s := s) h (by rw [ht₀]; rfl) hcopy
  rw [hoptr] at hchunks hsize hkept
  have hge := chunkStart_ge es
  have hbytes : ∀ i, i < sig.length → u.ibufByte (0 + i) = (memWrite s 0 sig).obufByte (0 + i) := fun i hi => by
    have hi' : i < 8 := hi
    rw [Nat.zero_add, hcopy i (by omega), hkept i hi', ht₀]
    rfl
  exact ⟨memRead_of_copy hbytes, hchunks, by omega⟩

/-- The signature compare finds the eight bytes of SIG in an input that holds them (R99). -/
theorem sigError_eq_none_of_memRead {u : State} {e : Nat} (h : memRead u 0 8 = sig) (he : 8 ≤ e) :
    sigError u e = none := by
  refine (sigError_eq_none u e).2 fun i hi => ⟨by omega, ?_⟩
  have hi' : i < (memRead u 0 8).length := by rwa [memRead_length]
  calc u.ibufByte i
      _ = (memRead u 0 8)[i] := by rw [memRead_getElem, Nat.zero_add]
      _ = sig[i]'hi := List.getElem_of_eq h hi'
      _ = sigByte i := (List.getD_eq_getElem _ _ hi).symm

/-- Settles O44: the chunks lie after the signature up to IBUF_LEN, so they are as many good chunks, and CHK_NEXT at one
of them parses it. -/
theorem builtContainerParsesBack : Obligations.BuiltContainerParsesBack := by
  intro s t₀ t u es hsigWr herr hemit hcopy hlen hin
  obtain ⟨hsig, hchunks, hsize⟩ := container_of_emitAll hsigWr herr hemit hcopy
  have hge := chunkStart_ge es
  rw [← hlen] at hin hsize
  have hnone : sigError u u.ibufLen.toNat = none := sigError_eq_none_of_memRead hsig (by omega)
  refine ⟨⟨_, exec_pngParse_of_end hin hnone (hchunks.goodChunks_all (by omega)) rfl, rfl, rfl, rfl, rfl⟩, ?_⟩
  rintro pre post x rfl
  have hpost := chunkStart_ge post
  have happend := chunkStart_append pre (x :: post)
  have hstart := chunkStart_ge pre
  simp only [chunkStart] at happend
  have hat : ChunksAt s u (chunkStart pre) (x :: post) := by
    have hafter := hchunks.of_append
    rwa [Nat.add_sub_cancel_left] at hafter
  let r : State := { u with cursor := toWord (chunkStart pre) }
  have hpos : r.cursor.toNat = chunkStart pre := ibuf_toNat (p := u.params) (by omega)
  have hgood : goodChunk u u.ibufLen.toNat (chunkStart pre) := hat.goodChunk_head (by omega)
  have hbefore : chunkStart pre ≤ u.ibufLen.toNat := by omega
  have hinR : ¬ (r.params.ibufSize.bytes < r.ibufLen.toNat ∨ r.ibufLen.toNat < r.cursor.toNat) := by
    rw [hpos]
    exact not_or.2 ⟨hin.not_gt, hbefore.not_gt⟩
  have hnext := exec_chkNext_of_goodChunk hinR (by rw [hpos]; exact hgood)
  have hdeclared : declaredLength r (chunkStart pre) = x.len.toNat := hat.declaredLength_head
  have hparse : writeParse (chunkStart pre) (12 + x.len.toNat) r =
      { writeParse (chunkStart pre) (12 + x.len.toNat) u with cursor := toWord (chunkStart pre) } := rfl
  rw [hpos, hdeclared, hparse, hat.writeParse_head] at hnext
  have hcursor : (toWord (chunkStart pre + 12 + x.len.toNat)).toNat = chunkStart pre + 12 + x.len.toNat :=
    ibuf_toNat (p := u.params) (by omega)
  have hoff : (toWord (chunkStart pre + 8)).toNat = chunkStart pre + 8 := ibuf_toNat (p := u.params) (by omega)
  refine ⟨_, hnext, rfl, hcursor, rfl, rfl, rfl, rfl, rfl, ?_⟩
  change memRead u (toWord (chunkStart pre + 8)).toNat x.len.toNat = x.data s
  rw [hoff, hat.memRead_data_head]

/-! ### Emitting a container again (R103) -/

/-- When OBUF below `p` is a copy of an IBUF, MemWrite of the next `n` bytes of that IBUF extends the copy (R9). -/
theorem memWrite_memRead_extends {s u : State} {p n : Nat} (h : ∀ x, x < p → s.obufByte x = u.ibufByte x) (x : Nat)
    (hx : x < p + n) : (memWrite s p (memRead u p n)).obufByte x = u.ibufByte x := by
  rcases Nat.lt_or_ge x p with hlt | hle
  · rw [memWrite_obufByte_of_outside _ (.inl hlt), h x hlt]
  · obtain ⟨i, rfl⟩ := Nat.exists_eq_add_of_le hle
    have hi : i < (memRead u p n).length := by rw [memRead_length]; omega
    rw [memWrite_obufByte_of_inside _ _ _ i hi, memRead_getElem]

/-- Emitting the chunks again from IBUF goes on to the end of the container, and OBUF up to OPTR is IBUF. -/
theorem emitAll_reEmissions {s u r : State} {p : Nat} {es : List Emission} (hchunks : ChunksAt s u p es)
    (hoptr : r.optr.toNat = p) (hparams : r.params = u.params) (hdraw : r.powerOns = u.powerOns)
    (hin : p + chunkStart es ≤ u.params.ibufSize.bytes + 8) (hout : p + chunkStart es ≤ u.params.obufSize.bytes + 8)
    (hsame : ∀ x, x < p → r.obufByte x = u.ibufByte x) :
    ∃ t, emitAll (reEmissions u.ibuf p es) r = some t ∧ t.optr.toNat + 8 = p + chunkStart es ∧
      ∀ x, x < t.optr.toNat → t.obufByte x = u.ibufByte x := by
  induction es generalizing p r with
  | nil => exact ⟨r, rfl, by rw [hoptr]; rfl, by rwa [hoptr]⟩
  | cons x es ih =>
    have hge := chunkStart_ge es
    simp only [chunkStart] at hin hout
    let y : Emission := ⟨u.ibuf, x.tag, toWord (p + 8), x.len⟩
    have hoff : (toWord (p + 8)).toNat = p + 8 := ibuf_toNat (p := u.params) (by omega)
    have hdata : y.data r = x.data s := by
      rw [← hchunks.memRead_data_head, ← hoff]
      exact memRead_congr fun _ _ => by simp only [State.ibufByte, hdraw]; rfl
    have hfits : (toWord (p + 8)).toNat + x.len.toNat ≤ u.params.ibufSize.bytes := by omega
    have hroom : p + (12 + x.len.toNat) ≤ u.params.obufSize.bytes := by omega
    have hemit := exec_chkEmit_setUp (s := r) (x := y) (by rwa [hparams]) (by rwa [hparams, hoptr]) hchunks.head_tag
    rw [hdata, ← hchunks.head, Emission.data_length, hoptr] at hemit
    generalize hr₁ : succeeded _ _ = r₁ at hemit
    have hoptr₁ : r₁.optr.toNat = p + 12 + x.len.toNat := by
      rw [← hr₁, Nat.add_assoc]
      exact optr_toNat hroom
    have hsame₁ : ∀ z, z < p + 12 + x.len.toNat → r₁.obufByte z = u.ibufByte z := fun z hz => by
      rw [← hr₁]
      exact memWrite_memRead_extends (s := y.setUp r) hsame z (by omega)
    obtain ⟨t, hrest, hsize, hall⟩ := ih hchunks.2 hoptr₁ (by rw [← hr₁]; exact hparams) (by rw [← hr₁]; exact hdraw)
      (by omega) (by omega) hsame₁
    exact ⟨t, emitAll_cons_eq_some.2 ⟨r₁, hemit, by rw [← hr₁]; rfl, hrest⟩, by simp only [chunkStart]; omega, hall⟩

/-- Settles O45: the signature and then the chunks are written where they were, so OBUF up to OPTR is IBUF again. -/
theorem reEmittedContainerHasTheSameBytes : Obligations.ReEmittedContainerHasTheSameBytes := by
  intro s t₀ t u es hsigWr herr hemit hcopy hin hout
  obtain ⟨hsig, hchunks, hsize⟩ := container_of_emitAll hsigWr herr hemit hcopy
  have hge := chunkStart_ge es
  have hO : inO { u with optr := 0 } 0 8 := by
    change 0 + 8 ≤ u.params.obufSize.bytes
    omega
  have hwrite := exec_sigWr_of_inO (s := { u with optr := 0 }) hO
  generalize hr₀ : succeeded _ _ = r₀ at hwrite
  have hsame : ∀ x, x < 8 → r₀.obufByte x = u.ibufByte x := fun x hx => by
    have hextends := memWrite_memRead_extends (s := u) (u := u) (p := 0) (n := 8) nofun x (by omega)
    rw [hsig] at hextends
    rw [← hr₀]
    exact hextends
  obtain ⟨r, hall, hend, hbytes⟩ := emitAll_reEmissions hchunks (r := r₀) (by rw [← hr₀]; rfl) (by rw [← hr₀]; rfl)
    (by rw [← hr₀]; rfl) (by omega) (by omega) hsame
  have hoptr : r.optr = t.optr := BitVec.eq_of_toNat_eq (by omega)
  refine ⟨r₀, r, hwrite, by rw [← hr₀]; rfl, hall, hoptr, fun x hx => ?_⟩
  rw [hbytes x (by rwa [hoptr]), hcopy x hx]

end Sys2Proof.Machine
end
